-- ==== Sys2Proof/Word.lean ====
section
/-! DEFINITION. The widths of the machine's values (rules R6, R20, R23, R24, R71). All values are unsigned (R10). -/
namespace Sys2Proof

/-- A byte: a memory cell, a general register, a timer, the operand `kk`. -/
abbrev Byte := BitVec 8

/-- A 16-bit word: an instruction word, `I`, `PC`, a call-stack entry. -/
abbrev Word := BitVec 16

/-- A nibble: one of the four 4-bit fields of an instruction word (R71). -/
abbrev Nibble := BitVec 4

/-- The 12-bit operand `nnn`. -/
abbrev Addr12 := BitVec 12

end Sys2Proof
end

