-- ==== Sys2Proof/Syntax.lean ====
section
/-! DEFINITION. The 34 instructions (rule R75), one constructor per row of spec/opcode_table.json, with the operand
fields of rule R71 at their own widths (R73). -/
namespace Sys2Proof

/-- A register index, 0 to 15; it comes only from a 4-bit instruction field (R20). -/
abbrev Reg := BitVec 4

/-- `VF`, the register that doubles as the flag byte (R21). -/
abbrev VF : Reg := 0xF#4

/-- The instructions. A field of an instruction carries its encoded width in its type, so no term of this type holds an
operand the encoding has no room for (DESIGN CHOICE, safe, log 8). SHR and SHL keep the `y` nibble of their word, which
they do not use (R78): two words that differ only there are two terms with one effect. -/
inductive Instr where
  | cls                                   -- 00E0  CLS
  | ret                                   -- 00EE  RET
  | jpAddr   (nnn : Addr12)               -- 1nnn  JP addr
  | callAddr (nnn : Addr12)               -- 2nnn  CALL addr
  | seVxKk   (x : Reg) (kk : Byte)        -- 3xkk  SE Vx,kk
  | sneVxKk  (x : Reg) (kk : Byte)        -- 4xkk  SNE Vx,kk
  | seVxVy   (x y : Reg)                  -- 5xy0  SE Vx,Vy
  | ldVxKk   (x : Reg) (kk : Byte)        -- 6xkk  LD Vx,kk
  | addVxKk  (x : Reg) (kk : Byte)        -- 7xkk  ADD Vx,kk
  | ldVxVy   (x y : Reg)                  -- 8xy0  LD Vx,Vy
  | orVxVy   (x y : Reg)                  -- 8xy1  OR Vx,Vy
  | andVxVy  (x y : Reg)                  -- 8xy2  AND Vx,Vy
  | xorVxVy  (x y : Reg)                  -- 8xy3  XOR Vx,Vy
  | addVxVy  (x y : Reg)                  -- 8xy4  ADD Vx,Vy
  | subVxVy  (x y : Reg)                  -- 8xy5  SUB Vx,Vy
  | shrVx    (x y : Reg)                  -- 8xy6  SHR Vx (y ignored)
  | subnVxVy (x y : Reg)                  -- 8xy7  SUBN Vx,Vy
  | shlVx    (x y : Reg)                  -- 8xyE  SHL Vx (y ignored)
  | sneVxVy  (x y : Reg)                  -- 9xy0  SNE Vx,Vy
  | ldIAddr  (nnn : Addr12)               -- Annn  LD I,addr
  | jpV0Addr (nnn : Addr12)               -- Bnnn  JP V0,addr
  | rndVxKk  (x : Reg) (kk : Byte)        -- Cxkk  RND Vx,kk
  | drwVxVyN (x y : Reg) (n : Nibble)     -- Dxyn  DRW Vx,Vy,n
  | skpVx    (x : Reg)                    -- Ex9E  SKP Vx
  | sknpVx   (x : Reg)                    -- ExA1  SKNP Vx
  | ldVxDt   (x : Reg)                    -- Fx07  LD Vx,DT
  | ldVxK    (x : Reg)                    -- Fx0A  LD Vx,K
  | ldDtVx   (x : Reg)                    -- Fx15  LD DT,Vx
  | ldStVx   (x : Reg)                    -- Fx18  LD ST,Vx
  | addIVx   (x : Reg)                    -- Fx1E  ADD I,Vx
  | ldFVx    (x : Reg)                    -- Fx29  LD F,Vx
  | ldBVx    (x : Reg)                    -- Fx33  LD B,Vx
  | ldMemVx  (x : Reg)                    -- Fx55  LD [I],Vx
  | ldVxMem  (x : Reg)                    -- Fx65  LD Vx,[I]
  deriving DecidableEq, Repr

end Sys2Proof
end

