-- ==== Sys2Proof/Decode.lean ====
section
/-! DEFINITION. Decoding an instruction word (rules R70 to R74, R92), the encoder, and the spec's own table of masks and
matches (R75), kept beside the decoder so that the two can be held against each other. -/
namespace Sys2Proof

/-! The fields of a word (R71). -/

def opOf (w : Word) : Nibble := w.extractLsb' 12 4
def xOf (w : Word) : Reg := w.extractLsb' 8 4
def yOf (w : Word) : Reg := w.extractLsb' 4 4
def nOf (w : Word) : Nibble := w.extractLsb' 0 4
def kkOf (w : Word) : Byte := w.extractLsb' 0 8
def nnnOf (w : Word) : Addr12 := w.extractLsb' 0 12

/-- Group 0 (R74): the whole word; every other `0nnn`, SYS among them, is illegal (R79). -/
def decode0 (nnn : Addr12) : Option Instr :=
  match nnn with
  | 0x0E0#12 => some .cls
  | 0x0EE#12 => some .ret
  | _ => none

/-- Groups 5 and 9 (R74): legal only where the low nibble is 0 (R77). -/
def decodeIfZero (n : Nibble) (i : Instr) : Option Instr :=
  match n with
  | 0x0#4 => some i
  | _ => none

/-- Group 8 (R74): the register-register arithmetic, by the low nibble. -/
def decode8 (x y : Reg) (n : Nibble) : Option Instr :=
  match n with
  | 0x0#4 => some (.ldVxVy x y)
  | 0x1#4 => some (.orVxVy x y)
  | 0x2#4 => some (.andVxVy x y)
  | 0x3#4 => some (.xorVxVy x y)
  | 0x4#4 => some (.addVxVy x y)
  | 0x5#4 => some (.subVxVy x y)
  | 0x6#4 => some (.shrVx x y)
  | 0x7#4 => some (.subnVxVy x y)
  | 0xE#4 => some (.shlVx x y)
  | _ => none

/-- Group E (R74): the key skips, by the low byte. -/
def decodeE (x : Reg) (kk : Byte) : Option Instr :=
  match kk with
  | 0x9E#8 => some (.skpVx x)
  | 0xA1#8 => some (.sknpVx x)
  | _ => none

/-- Group F (R74): timers, key wait, index and memory, by the low byte. -/
def decodeF (x : Reg) (kk : Byte) : Option Instr :=
  match kk with
  | 0x07#8 => some (.ldVxDt x)
  | 0x0A#8 => some (.ldVxK x)
  | 0x15#8 => some (.ldDtVx x)
  | 0x18#8 => some (.ldStVx x)
  | 0x1E#8 => some (.addIVx x)
  | 0x29#8 => some (.ldFVx x)
  | 0x33#8 => some (.ldBVx x)
  | 0x55#8 => some (.ldMemVx x)
  | 0x65#8 => some (.ldVxMem x)
  | _ => none

/-- Decode (R92): the one instruction a word is, by its first nibble (R74), or none, which the step reports as
UnsupportedOpcode. It reads nothing but the word. -/
def decode (w : Word) : Option Instr :=
  match opOf w with
  | 0x0#4 => decode0 (nnnOf w)
  | 0x1#4 => some (.jpAddr (nnnOf w))
  | 0x2#4 => some (.callAddr (nnnOf w))
  | 0x3#4 => some (.seVxKk (xOf w) (kkOf w))
  | 0x4#4 => some (.sneVxKk (xOf w) (kkOf w))
  | 0x5#4 => decodeIfZero (nOf w) (.seVxVy (xOf w) (yOf w))
  | 0x6#4 => some (.ldVxKk (xOf w) (kkOf w))
  | 0x7#4 => some (.addVxKk (xOf w) (kkOf w))
  | 0x8#4 => decode8 (xOf w) (yOf w) (nOf w)
  | 0x9#4 => decodeIfZero (nOf w) (.sneVxVy (xOf w) (yOf w))
  | 0xA#4 => some (.ldIAddr (nnnOf w))
  | 0xB#4 => some (.jpV0Addr (nnnOf w))
  | 0xC#4 => some (.rndVxKk (xOf w) (kkOf w))
  | 0xD#4 => some (.drwVxVyN (xOf w) (yOf w) (nOf w))
  | 0xE#4 => decodeE (xOf w) (kkOf w)
  | 0xF#4 => decodeF (xOf w) (kkOf w)
  | _ => none

/-- The word two bytes make: big-endian, the byte at the lower address is bits 15..8 (R56, R70). -/
def wordOfBytes (hi lo : Byte) : Word := hi.setWidth 16 <<< 8 ||| lo.setWidth 16

/-- Why a string of bytes is no instruction. -/
inductive DecodeError where
  /-- Fewer than the two bytes every instruction has (R70). -/
  | tooShort
  /-- The word matches none of the 34 patterns (R77). -/
  | unsupportedOpcode (w : Word)
  deriving DecidableEq, Repr

/-- Decode the first instruction of a string of bytes, and give back the bytes after it. Total, rejecting by name. -/
def decodeBytes : List Byte → Except DecodeError (Instr × List Byte)
  | hi :: lo :: rest =>
    match decode (wordOfBytes hi lo) with
    | some i => .ok (i, rest)
    | none => .error (.unsupportedOpcode (wordOfBytes hi lo))
  | _ => .error .tooShort

/-! The encoder, one line per row of R75. -/

/-- Format A: `op nnn` (R72). -/
def formatA (op : Nibble) (nnn : Addr12) : Word := op.setWidth 16 <<< 12 ||| nnn.setWidth 16

/-- Format I: `op x kk`; also format X, whose low byte is fixed (R72). -/
def formatI (op : Nibble) (x : Reg) (kk : Byte) : Word :=
  op.setWidth 16 <<< 12 ||| x.setWidth 16 <<< 8 ||| kk.setWidth 16

/-- Format R: `op x y f`; also format D, whose low nibble is `n` (R72). -/
def formatR (op : Nibble) (x y : Reg) (f : Nibble) : Word :=
  op.setWidth 16 <<< 12 ||| x.setWidth 16 <<< 8 ||| y.setWidth 16 <<< 4 ||| f.setWidth 16

/-- The instruction word of an instruction (R75). -/
def encode : Instr → Word
  | .cls => 0x00E0
  | .ret => 0x00EE
  | .jpAddr nnn => formatA 0x1 nnn
  | .callAddr nnn => formatA 0x2 nnn
  | .seVxKk x kk => formatI 0x3 x kk
  | .sneVxKk x kk => formatI 0x4 x kk
  | .seVxVy x y => formatR 0x5 x y 0x0
  | .ldVxKk x kk => formatI 0x6 x kk
  | .addVxKk x kk => formatI 0x7 x kk
  | .ldVxVy x y => formatR 0x8 x y 0x0
  | .orVxVy x y => formatR 0x8 x y 0x1
  | .andVxVy x y => formatR 0x8 x y 0x2
  | .xorVxVy x y => formatR 0x8 x y 0x3
  | .addVxVy x y => formatR 0x8 x y 0x4
  | .subVxVy x y => formatR 0x8 x y 0x5
  | .shrVx x y => formatR 0x8 x y 0x6
  | .subnVxVy x y => formatR 0x8 x y 0x7
  | .shlVx x y => formatR 0x8 x y 0xE
  | .sneVxVy x y => formatR 0x9 x y 0x0
  | .ldIAddr nnn => formatA 0xA nnn
  | .jpV0Addr nnn => formatA 0xB nnn
  | .rndVxKk x kk => formatI 0xC x kk
  | .drwVxVyN x y n => formatR 0xD x y n
  | .skpVx x => formatI 0xE x 0x9E
  | .sknpVx x => formatI 0xE x 0xA1
  | .ldVxDt x => formatI 0xF x 0x07
  | .ldVxK x => formatI 0xF x 0x0A
  | .ldDtVx x => formatI 0xF x 0x15
  | .ldStVx x => formatI 0xF x 0x18
  | .addIVx x => formatI 0xF x 0x1E
  | .ldFVx x => formatI 0xF x 0x29
  | .ldBVx x => formatI 0xF x 0x33
  | .ldMemVx x => formatI 0xF x 0x55
  | .ldVxMem x => formatI 0xF x 0x65

/-- The two bytes of a word in the order memory holds them, high byte first (R56). -/
def bytesOfWord (w : Word) : List Byte := [w.extractLsb' 8 8, w.extractLsb' 0 8]

/-- The bytes of an instruction. -/
def encodeBytes (i : Instr) : List Byte := bytesOfWord (encode i)

/-! The spec's table (R75): a word is the instruction exactly when the word AND the mask equals the match. -/

/-- One row of R75's table. -/
structure Pattern where
  mask : Word
  value : Word
  deriving DecidableEq, Repr

/-- A word fits a row of the table. -/
def Pattern.fits (p : Pattern) (w : Word) : Bool := w &&& p.mask == p.value

/-- The row of R75's table that an instruction belongs to, its mask and match copied from there. -/
def patternOf : Instr → Pattern
  | .cls => ⟨0xFFFF, 0x00E0⟩
  | .ret => ⟨0xFFFF, 0x00EE⟩
  | .jpAddr _ => ⟨0xF000, 0x1000⟩
  | .callAddr _ => ⟨0xF000, 0x2000⟩
  | .seVxKk _ _ => ⟨0xF000, 0x3000⟩
  | .sneVxKk _ _ => ⟨0xF000, 0x4000⟩
  | .seVxVy _ _ => ⟨0xF00F, 0x5000⟩
  | .ldVxKk _ _ => ⟨0xF000, 0x6000⟩
  | .addVxKk _ _ => ⟨0xF000, 0x7000⟩
  | .ldVxVy _ _ => ⟨0xF00F, 0x8000⟩
  | .orVxVy _ _ => ⟨0xF00F, 0x8001⟩
  | .andVxVy _ _ => ⟨0xF00F, 0x8002⟩
  | .xorVxVy _ _ => ⟨0xF00F, 0x8003⟩
  | .addVxVy _ _ => ⟨0xF00F, 0x8004⟩
  | .subVxVy _ _ => ⟨0xF00F, 0x8005⟩
  | .shrVx _ _ => ⟨0xF00F, 0x8006⟩
  | .subnVxVy _ _ => ⟨0xF00F, 0x8007⟩
  | .shlVx _ _ => ⟨0xF00F, 0x800E⟩
  | .sneVxVy _ _ => ⟨0xF00F, 0x9000⟩
  | .ldIAddr _ => ⟨0xF000, 0xA000⟩
  | .jpV0Addr _ => ⟨0xF000, 0xB000⟩
  | .rndVxKk _ _ => ⟨0xF000, 0xC000⟩
  | .drwVxVyN _ _ _ => ⟨0xF000, 0xD000⟩
  | .skpVx _ => ⟨0xF0FF, 0xE09E⟩
  | .sknpVx _ => ⟨0xF0FF, 0xE0A1⟩
  | .ldVxDt _ => ⟨0xF0FF, 0xF007⟩
  | .ldVxK _ => ⟨0xF0FF, 0xF00A⟩
  | .ldDtVx _ => ⟨0xF0FF, 0xF015⟩
  | .ldStVx _ => ⟨0xF0FF, 0xF018⟩
  | .addIVx _ => ⟨0xF0FF, 0xF01E⟩
  | .ldFVx _ => ⟨0xF0FF, 0xF029⟩
  | .ldBVx _ => ⟨0xF0FF, 0xF033⟩
  | .ldMemVx _ => ⟨0xF0FF, 0xF055⟩
  | .ldVxMem _ => ⟨0xF0FF, 0xF065⟩

/-- The 34 rows of R75, in the table's order. -/
def patterns : List Pattern :=
  [⟨0xFFFF, 0x00E0⟩, ⟨0xFFFF, 0x00EE⟩, ⟨0xF000, 0x1000⟩, ⟨0xF000, 0x2000⟩, ⟨0xF000, 0x3000⟩, ⟨0xF000, 0x4000⟩] ++
  [⟨0xF00F, 0x5000⟩, ⟨0xF000, 0x6000⟩, ⟨0xF000, 0x7000⟩] ++
  [⟨0xF00F, 0x8000⟩, ⟨0xF00F, 0x8001⟩, ⟨0xF00F, 0x8002⟩, ⟨0xF00F, 0x8003⟩, ⟨0xF00F, 0x8004⟩] ++
  [⟨0xF00F, 0x8005⟩, ⟨0xF00F, 0x8006⟩, ⟨0xF00F, 0x8007⟩, ⟨0xF00F, 0x800E⟩, ⟨0xF00F, 0x9000⟩] ++
  [⟨0xF000, 0xA000⟩, ⟨0xF000, 0xB000⟩, ⟨0xF000, 0xC000⟩, ⟨0xF000, 0xD000⟩, ⟨0xF0FF, 0xE09E⟩, ⟨0xF0FF, 0xE0A1⟩] ++
  [⟨0xF0FF, 0xF007⟩, ⟨0xF0FF, 0xF00A⟩, ⟨0xF0FF, 0xF015⟩, ⟨0xF0FF, 0xF018⟩, ⟨0xF0FF, 0xF01E⟩] ++
  [⟨0xF0FF, 0xF029⟩, ⟨0xF0FF, 0xF033⟩, ⟨0xF0FF, 0xF055⟩, ⟨0xF0FF, 0xF065⟩]

/-- The instruction this decoder reads from a row of spec/opcode_table.json whose bits are `w` (the table numbers bit 0 as
the least significant bit of the word): the two bytes laid out as memory holds them, high byte first. The table gives
every row 16 bits; bits above `nbits` are 0, and no instruction is longer than one word. -/
def decodeTableWord (nbits w : Nat) : Option Instr :=
  match decodeBytes (bytesOfWord (BitVec.ofNat 16 (w % 2 ^ min nbits 16))) with
  | .ok (i, _) => some i
  | .error _ => none

end Sys2Proof
end

