-- ==== Sys2Proof/Config.lean ====
section
/-! DEFINITION. What is fixed for the machine as a whole (rules R6, R7), and the one value the spec leaves free (R125). -/
namespace Sys2Proof

/-- The number of memory bytes, addresses 0 to 4095 (R6, R50). -/
abbrev Config.memSize : Nat := 0x1000

/-- Where a program image is loaded (R6 `PROG_BASE`, R53). -/
abbrev Config.progBase : Nat := 0x200

/-- Where execution starts after reset (R7 `ENTRY`, R191). -/
abbrev Config.entry : Word := 0x200

/-- The longest program image, `0x1000 - 0x200` bytes (R53, R196). -/
abbrev Config.maxImage : Nat := Config.memSize - Config.progBase

/-- DESIGN CHOICE, safe (log 2). The random byte of the `k`-th RND executed, where the host hands
none: R125 calls it "any value 0..255", under no
law (D18, U9). It has no body, so nothing can be proved of its value and every claim holds whatever it is. -/
opaque Config.rnd : Nat → Byte

end Sys2Proof
end

