-- ==== Sys2Proof/Machine/State.lean ====
section
/-! DEFINITION. The machine's state (10_state.md rules R20 to R42), its fatal conditions (60_exceptions.md rules R160 to
R173), and the state after reset. Plain data throughout. -/
namespace Sys2Proof.Machine

/-- Memory as the bytes that differ from their reset contents (log 5): addresses strictly rising, `Memory.wf`. -/
abbrev Memory := List Host.Cell

/-- The framebuffer `FB[r][c]`: 32 rows of 64 one-bit pixels, row first (R31). -/
abbrev Framebuffer := Vector (Vector Bool 64) 32

/-- The six kinds of bounds violation (R162 to R168). -/
inductive BoundsKind where
  /-- A step begins with `PC > 4094` (R163). -/
  | pcOutOfRange
  /-- A data access would reach an address above 0xFFF (R164). -/
  | memAddress
  /-- CALL with 16 entries in use (R165). -/
  | stackOverflow
  /-- RET with no entry in use (R166). -/
  | stackUnderflow
  /-- ADD I,Vx whose sum does not fit 16 bits (R167). -/
  | indexOverflow
  /-- SKP or SKNP with a register above 15 (R168). -/
  | keyIndex
  deriving DecidableEq, Repr

/-- The fatal conditions (R160, R173). -/
inductive FaultKind where
  /-- The fetched word matches no pattern (R161). -/
  | unsupportedOpcode
  /-- A pointer strayed outside its bounds (R162). -/
  | boundsViolation (kind : BoundsKind)
  /-- The program image does not fit; raised by reset only (R169, R196). -/
  | resourceLoadFailure
  deriving DecidableEq, Repr

/-- The code of a fatal condition (R173). -/
def FaultKind.code : FaultKind → Nat
  | .unsupportedOpcode => 1
  | .boundsViolation .pcOutOfRange => 2
  | .boundsViolation .memAddress => 3
  | .boundsViolation .stackOverflow => 4
  | .boundsViolation .stackUnderflow => 5
  | .boundsViolation .indexOverflow => 6
  | .boundsViolation .keyIndex => 7
  | .resourceLoadFailure => 8

/-- The record the fault latch holds (R41, R173). The record's `code` is `FaultRecord.code`, computed from `kind` so that
the two cannot disagree (log 9). `opcode` is absent when the fetch itself faulted, `pc` when reset did. -/
structure FaultRecord where
  kind   : FaultKind
  pc     : Option Word
  opcode : Option Word
  value  : Nat
  deriving DecidableEq, Repr

/-- The `code` of a record (R173). -/
def FaultRecord.code (r : FaultRecord) : Nat := r.kind.code

/-- What `raise <Kind>(info)` carries (R13): the kind and the recorded value. -/
structure Cause where
  kind  : FaultKind
  value : Nat
  deriving DecidableEq, Repr

/-- The program-counter directives (R14, R96). -/
inductive Directive where
  /-- `pc += 2`. -/
  | next
  /-- `pc += 4`. -/
  | skip
  /-- `pc := addr`. -/
  | jump (addr : Word)
  deriving DecidableEq, Repr

/-- The four outcomes of a step (R90). -/
inductive StepOutcome where
  /-- The instruction executed. -/
  | done
  /-- LD Vx,K found no key pressed (R93). -/
  | hold
  /-- A fatal condition was raised (R97). -/
  | fault
  /-- The latch held a record when the step began (R98). -/
  | halted
  deriving DecidableEq, Repr

/-- The outputs of the most recent step, which the host reads (R90, R203). DESIGN CHOICE, safe (log 3): the model's own
record of a step's result, held in the state because a step answers nothing but a state. No rule reads it. -/
structure Outputs where
  outcome : StepOutcome
  beep    : Bool
  refresh : Bool
  deriving DecidableEq, Repr

/-- Everything the spec gives the machine, and the model's own `draws` and `offered` (log 2) and `out` (log 3). -/
structure State where
  /-- `V0` to `VF` (R20). -/
  v     : Vector Byte 16
  /-- `I` (R23). -/
  index : Word
  /-- `PC` (R24). -/
  pc    : Word
  /-- `SP`, the number of stacked return addresses, 0 to 16 (R27). -/
  sp    : Fin 17
  /-- `STACK[0..15]` (R26). -/
  stack : Vector Word 16
  /-- `DT` (R28). -/
  dt    : Byte
  /-- `ST` (R29). -/
  st    : Byte
  /-- `MEM[0..4095]` (R30). -/
  mem   : Memory
  /-- `FB` (R31). -/
  fb    : Framebuffer
  /-- `KEY[0..15]` (R32). -/
  keys  : Vector Bool 16
  /-- `FAULT` (R41). -/
  fault : Option FaultRecord
  /-- The model's own: how many random draws RND has taken (log 2). -/
  draws : Nat
  /-- The model's own: the random byte the host hands the step it invokes, the `rnd` of Step(rnd) (R200); none where `step` is
  taken by itself, and RND then draws a free value (log 2). -/
  offered : Option Byte
  /-- The model's own: the outputs of the most recent step (log 3). -/
  out   : Outputs
  deriving DecidableEq, Repr

/-- What executing an instruction gives the step cycle (R94): the state with the instruction's writes, the directive, and
whether `refresh` was emitted. The tick and the directive are still to be applied. -/
structure Effect where
  state     : State
  directive : Directive
  refresh   : Bool

/-- How the machine can fail to exist. No step ends in one of these: a step that raises takes the spec's own fault entry,
a next state with the latch set (R170, log 1). -/
inductive Fault where
  /-- Raised by `resetWith` (the host's Reset, R190) for an image longer than 3584 bytes, with the record of R173's last
  row: "fatal at startup" (R169, R196). No machine results. Safe: the model gives no state where the spec gives none. -/
  | resourceLoadFailure (record : FaultRecord)
  deriving DecidableEq, Repr

/-- Why a step has no meaning. -/
inductive Refusal where
  /-- Answered only by an arm of `exec` whose instruction has no meaning yet; every arm has one. Safe. -/
  | notModelled (mnemonic : String)
  deriving DecidableEq, Repr

/-- The state after Reset with the empty image (R42, R190 to R192, R196): every field at R42's value. Memory lists nothing,
that is, every byte reads as its reset contents: the font, and 0 elsewhere. `draws`, `offered` and `out` are the
model's own, their values a DESIGN CHOICE (log 2, log 3). -/
def State.reset : State where
  v     := Vector.replicate 16 0
  index := 0
  pc    := Config.entry
  sp    := 0
  stack := Vector.replicate 16 0
  dt    := 0
  st    := 0
  mem   := []
  fb    := Vector.replicate 32 (Vector.replicate 64 false)
  keys  := Vector.replicate 16 false
  fault := none
  draws := 0
  offered := none
  out   := ⟨.done, false, false⟩

end Sys2Proof.Machine
end

