-- ==== Sys2Proof/Machine/Ops.lean ====
section
/-! DEFINITION. The named operations of the machine: memory (20_memory.md), the fetch (R91), the fault entry (R97, R170),
and the end of a step: the timer tick (R95) and the directive (R96). -/
namespace Sys2Proof.Machine

/-! ## Memory -/

/-- The 80 font bytes (R55), sixteen glyphs of five rows, digit `d` at `5*d` (R52). The values are the spec's from general
knowledge (G2, log 13). -/
def fontBytes : List Byte :=
  [0xF0, 0x90, 0x90, 0x90, 0xF0,  0x20, 0x60, 0x20, 0x20, 0x70,  0xF0, 0x10, 0xF0, 0x80, 0xF0,  0xF0, 0x10, 0xF0, 0x10, 0xF0] ++
  [0x90, 0x90, 0xF0, 0x10, 0x10,  0xF0, 0x80, 0xF0, 0x10, 0xF0,  0xF0, 0x80, 0xF0, 0x90, 0xF0,  0xF0, 0x10, 0x20, 0x40, 0x40] ++
  [0xF0, 0x90, 0xF0, 0x90, 0xF0,  0xF0, 0x90, 0xF0, 0x10, 0xF0,  0xF0, 0x90, 0xF0, 0x90, 0x90,  0xE0, 0x90, 0xE0, 0x90, 0xE0] ++
  [0xF0, 0x80, 0x80, 0x80, 0xF0,  0xE0, 0x90, 0x90, 0x90, 0xE0,  0xF0, 0x80, 0xF0, 0x80, 0xF0,  0xF0, 0x80, 0xF0, 0x80, 0x80]

/-- What a byte nothing has written reads as: its contents after a reset with no image, the font at 0x000 to 0x04F and 0
elsewhere (R42, R51). -/
def Memory.initial (a : Nat) : Byte := fontBytes.getD a 0

/-- `MEM[a]`: the last byte written there, or the reset contents (R63). -/
def Memory.read : Memory → Nat → Byte
  | [], a => Memory.initial a
  | (b, v) :: rest, a => if a = b then v else Memory.read rest a

/-- Memory with address `a` no longer listed. -/
def Memory.erase (m : Memory) (a : Nat) : Memory := m.filter fun c => c.1 != a

/-- Memory with an unlisted address `a` listed, in address order. -/
def Memory.insert : Memory → Nat → Byte → Memory
  | [], a, v => [(a, v)]
  | (b, u) :: rest, a, v => if a < b then (a, v) :: (b, u) :: rest else (b, u) :: Memory.insert rest a v

/-- `MEM[a] <- v`, keeping the canonical form: a byte that equals its reset contents is not listed (log 5). -/
def Memory.write (m : Memory) (a : Nat) (v : Byte) : Memory :=
  if v = Memory.initial a then m.erase a else (m.erase a).insert a v

/-- A sequence of bytes written from `a` on, at ascending addresses (R53, R56). -/
def Memory.writeAll (m : Memory) (a : Nat) : List Byte → Memory
  | [] => m
  | b :: rest => Memory.writeAll (m.write a b) (a + 1) rest

/-- The canonical form from address `lo` on. -/
def Memory.wfFrom (lo : Nat) : Memory → Bool
  | [] => true
  | (a, v) :: rest => decide (lo ≤ a) && decide (a ≤ 0xFFF) && v != Memory.initial a && Memory.wfFrom (a + 1) rest

/-- The canonical form of memory: addresses of the space of R50 strictly rising, and no entry equal to what an unlisted
address reads as. -/
def Memory.wf (m : Memory) : Bool := Memory.wfFrom 0 m

/-- `raise BoundsViolation(MemAddress, a)` (R164). -/
def badAddress (a : Nat) : Cause := ⟨.boundsViolation .memAddress, a⟩

/-- `MemRead(a, 1)` (R12). -/
def memRead (a : Nat) (s : State) : Except Cause Byte :=
  if a ≤ 0xFFF then .ok (s.mem.read a) else .error (badAddress a)

/-- `MemWrite(a, 1, v)` (R12). -/
def memWrite (a : Nat) (v : Byte) (s : State) : Except Cause State :=
  if a ≤ 0xFFF then .ok { s with mem := s.mem.write a v } else .error (badAddress a)

/-- `n` bytes from `a` on, at ascending addresses (R56, R58). -/
def loadBytes (a : Nat) : Nat → State → Except Cause (List Byte)
  | 0, _ => .ok []
  | n + 1, s => do
    let b ← memRead a s
    let rest ← loadBytes (a + 1) n s
    return b :: rest

/-- Store a sequence of bytes from `a` on, at ascending addresses (R56, R58). -/
def storeBytes (a : Nat) : List Byte → State → Except Cause State
  | [], s => .ok s
  | b :: rest, s => do
    let s' ← memWrite a b s
    storeBytes (a + 1) rest s'

/-- The check made before an instruction accesses `I + 0` to `I + m`, on unbounded naturals: the value reported is the lowest
offending address (R60). Addresses never wrap. -/
def checkRange (m : Nat) (s : State) : Except Cause Unit :=
  if 0xFFF < s.index.toNat + m then .error (badAddress (max s.index.toNat 0x1000)) else .ok ()

/-! ## Fetch -/

/-- The word at `PC`, as memory is now (R56, R66). -/
def fetchWord (s : State) : Word := wordOfBytes (s.mem.read s.pc.toNat) (s.mem.read (s.pc.toNat + 1))

/-- `Fetch(PC)` (R91): valid exactly when `PC <= 4094`, whatever its parity (R57, R61). -/
def fetch (s : State) : Except Cause Word :=
  if 4094 < s.pc.toNat then .error ⟨.boundsViolation .pcOutOfRange, s.pc.toNat⟩ else .ok (fetchWord s)

/-- The two bytes of a word at `a` and `a + 1`, high byte first (R56). -/
def placeWord (m : Memory) (a : Nat) (w : Word) : Memory :=
  (m.write a (w.extractLsb' 8 8)).write (a + 1) (w.extractLsb' 0 8)

/-! ## The fault entry -/

/-- Taking a fatal condition (R97, R170, R171): the latch is set to the record of R173, and nothing else of the machine
changes: no write, no tick, no event, `PC` kept. `w` is the fetched word, if one was fetched. There is no return from it
and no nesting (R172). -/
def raise (c : Cause) (w : Option Word) (s : State) : State :=
  { s with fault := some ⟨c.kind, some s.pc, w, c.value⟩, out := ⟨.fault, false, false⟩ }

/-- A step of a halted machine changes nothing (R98). -/
def halt (s : State) : State := { s with out := ⟨.halted, false, false⟩ }

/-- A step that waits for a key changes nothing (R93). -/
def hold (s : State) : State := { s with out := ⟨.hold, false, false⟩ }

/-! ## The end of a completed step -/

/-- One count down, stopping at 0 (R28, R95). -/
def tickDown (t : Byte) : Byte := if t = 0 then 0 else t - 1

/-- The timer tick's effect on the two timers (R95). -/
def timerTick (s : State) : State := { s with dt := tickDown s.dt, st := tickDown s.st }

/-- Whether the timer tick emits `beep`: it finds `ST = 1` (R95). -/
def beeps (s : State) : Bool := s.st == 1

/-- Where a directive sends `PC`, on 16-bit values (R25, R96). -/
def Directive.target (pc : Word) : Directive → Word
  | .next => pc + 2
  | .skip => pc + 4
  | .jump a => a

/-- Apply the directive (R96). No check is made on the new `PC`. -/
def advance (d : Directive) (s : State) : State := { s with pc := d.target s.pc }

/-- The end of a completed step (R99): after the instruction's writes, the tick, then the directive; the events and the
outcome `Done`. -/
def finish (e : Effect) : State :=
  { advance e.directive (timerTick e.state) with out := ⟨.done, beeps e.state, e.refresh⟩ }

/-- The rest of a step once an instruction with word `w` has executed or raised, in a state `s` it began in (R99). -/
def complete (w : Word) (r : Except Cause Effect) (s : State) : Host.Outcome State Fault Refusal :=
  match r with
  | .ok e => .next (finish e)
  | .error c => .next (raise c (some w) s)

/-- `return Next` with the state written so far (R14). -/
def returnNext (s : State) : Except Cause Effect := .ok ⟨s, .next, false⟩

/-- `if c: return Skip else: return Next` (R14, R104). -/
def returnSkipIf (c : Bool) (s : State) : Except Cause Effect := .ok ⟨s, if c then .skip else .next, false⟩

/-- `return Jump(a)` (R14). -/
def returnJump (a : Word) (s : State) : Except Cause Effect := .ok ⟨s, .jump a, false⟩

end Sys2Proof.Machine
end

