-- ==== Sys2Proof/Machine/Operands.lean ====
section
/-! DEFINITION. The operand forms: registers `Vx`, `Vy` (R11, R20), immediates and addresses (R73), the bytes at `[I]`
(R58, R130), key codes (R32), the call stack (R26). -/
namespace Sys2Proof.Machine

/-- `V[x]` (R11). -/
def State.getV (s : State) (x : Reg) : Byte := s.v[x.toNat]'x.isLt

/-- `V[x] <- b` (R11). -/
def State.setV (s : State) (x : Reg) (b : Byte) : State := { s with v := s.v.set x.toNat b x.isLt }

/-- `I <- a` (R23). -/
def State.setI (s : State) (a : Word) : State := { s with index := a }

/-- `zext_16(nnn)` (R73). -/
def zext16 (nnn : Addr12) : Word := nnn.setWidth 16

/-- `zext_16` of a byte (R10). -/
def zextByte (b : Byte) : Word := b.setWidth 16

/-- `V[0]` to `V[x]`, lowest first (R134). -/
def regBlock (x : Reg) (s : State) : List Byte := s.v.toList.take (x.toNat + 1)

/-- `V[k], V[k+1], ...` from a sequence of bytes (R135). -/
def setRegs : Nat → List Byte → State → State
  | _, [], s => s
  | k, b :: rest, s => setRegs (k + 1) rest (s.setV (BitVec.ofNat 4 k) b)

/-- `draw rnd` (R125): the byte the host's Step(rnd) handed this step (R200), or else the next free byte. Any value, under no
law (D18, log 2). -/
def State.drawn (s : State) : Byte := s.offered.getD (Config.rnd s.draws)

/-- `KEY[k]` (R11, R32). -/
def State.key (s : State) (k : Fin 16) : Bool := s.keys[k]

/-- The key code in a register: a value above 15 is none, and raises KeyIndex (R151, R168). The whole byte is the code. -/
def keyCode (b : Byte) : Except Cause (Fin 16) :=
  if h : b.toNat < 16 then .ok ⟨b.toNat, h⟩ else .error ⟨.boundsViolation .keyIndex, b.toNat⟩

/-- The lowest pressed key, if any (R154). -/
def lowestKey (s : State) : Option (Fin 16) := (List.finRange 16).find? s.key

/-- `STACK[SP] <- a; SP <- SP + 1`, or StackOverflow when 16 entries are in use (R103, R165). -/
def push (a : Word) (s : State) : Except Cause State :=
  if h : s.sp.val < 16 then
    .ok { s with stack := s.stack.set s.sp.val a h, sp := ⟨s.sp.val + 1, Nat.succ_lt_succ h⟩ }
  else .error ⟨.boundsViolation .stackOverflow, 16⟩

/-- `SP <- SP - 1`, then `STACK[SP]`, or StackUnderflow when no entry is in use (R101, R166). The popped entry stays in
`STACK`. -/
def pop (s : State) : Except Cause (Word × State) :=
  if h : s.sp.val = 0 then .error ⟨.boundsViolation .stackUnderflow, 0⟩
  else
    .ok (s.stack[s.sp.val - 1]'(by have := s.sp.isLt; omega),
      { s with sp := ⟨s.sp.val - 1, by have := s.sp.isLt; omega⟩ })

end Sys2Proof.Machine
end

