-- ==== Sys2Proof/Machine/Flags.lean ====
section
/-! DEFINITION. The one flag, the byte VF (R21, R33), and how each flag-writing instruction computes it. -/
namespace Sys2Proof.Machine

/-- A flag is the whole byte 1 or 0, never only bit 0 (R21). -/
def flagByte (c : Bool) : Byte := if c then 1 else 0

/-- `VF <- flag` (R33). -/
def State.setFlag (s : State) (c : Bool) : State := s.setV VF (flagByte c)

/-- The result first, the flag second: with `x = F` the flag is what VF holds afterwards (R122, D8). -/
def State.setResultFlag (s : State) (x : Reg) (r : Byte) (c : Bool) : State := (s.setV x r).setFlag c

/-- Unsigned overflow of a byte addition (R117). -/
def carryOut (a b : Byte) : Bool := decide (255 < a.toNat + b.toNat)

/-- No borrow in `a - b`, equality included (R118). -/
def noBorrow (a b : Byte) : Bool := decide (b.toNat ≤ a.toNat)

/-- The low bit (R119). -/
def lowBit (a : Byte) : Bool := a.getLsbD 0

/-- The high bit (R121). -/
def highBit (a : Byte) : Bool := a.getLsbD 7

end Sys2Proof.Machine
end

