-- ==== Sys2Proof/Machine/Alu.lean ====
section
/-! DEFINITION. The register load, arithmetic, logic, shift and random instructions (42_alu.md, rules R110 to R125). Every
operand is read from the state the step began in, before any write (R110). -/
namespace Sys2Proof.Machine

/-- LD Vx,kk (R111). -/
def execLdVxKk (x : Reg) (kk : Byte) (s : State) : Host.Outcome State Fault Refusal :=
  complete (encode (.ldVxKk x kk)) (returnNext (s.setV x kk)) s

/-- LD Vx,Vy (R112). -/
def execLdVxVy (x y : Reg) (s : State) : Host.Outcome State Fault Refusal :=
  complete (encode (.ldVxVy x y)) (returnNext (s.setV x (s.getV y))) s

/-- OR Vx,Vy (R113): no flag. -/
def execOrVxVy (x y : Reg) (s : State) : Host.Outcome State Fault Refusal :=
  complete (encode (.orVxVy x y)) (returnNext (s.setV x (s.getV x ||| s.getV y))) s

/-- AND Vx,Vy (R114): no flag. -/
def execAndVxVy (x y : Reg) (s : State) : Host.Outcome State Fault Refusal :=
  complete (encode (.andVxVy x y)) (returnNext (s.setV x (s.getV x &&& s.getV y))) s

/-- XOR Vx,Vy (R115): no flag. -/
def execXorVxVy (x y : Reg) (s : State) : Host.Outcome State Fault Refusal :=
  complete (encode (.xorVxVy x y)) (returnNext (s.setV x (s.getV x ^^^ s.getV y))) s

/-- ADD Vx,kk (R116): wrapping, no flag. -/
def execAddVxKk (x : Reg) (kk : Byte) (s : State) : Host.Outcome State Fault Refusal :=
  complete (encode (.addVxKk x kk)) (returnNext (s.setV x (s.getV x + kk))) s

/-- ADD Vx,Vy (R117). -/
def execAddVxVy (x y : Reg) (s : State) : Host.Outcome State Fault Refusal :=
  complete (encode (.addVxVy x y))
    (returnNext (s.setResultFlag x (s.getV x + s.getV y) (carryOut (s.getV x) (s.getV y)))) s

/-- SUB Vx,Vy (R118). -/
def execSubVxVy (x y : Reg) (s : State) : Host.Outcome State Fault Refusal :=
  complete (encode (.subVxVy x y))
    (returnNext (s.setResultFlag x (s.getV x - s.getV y) (noBorrow (s.getV x) (s.getV y)))) s

/-- SHR Vx (R119): `V[y]` is neither read nor written (R78, D9). -/
def execShrVx (x y : Reg) (s : State) : Host.Outcome State Fault Refusal :=
  complete (encode (.shrVx x y)) (returnNext (s.setResultFlag x (s.getV x >>> 1) (lowBit (s.getV x)))) s

/-- SUBN Vx,Vy (R120). -/
def execSubnVxVy (x y : Reg) (s : State) : Host.Outcome State Fault Refusal :=
  complete (encode (.subnVxVy x y))
    (returnNext (s.setResultFlag x (s.getV y - s.getV x) (noBorrow (s.getV y) (s.getV x)))) s

/-- SHL Vx (R121): `V[y]` is neither read nor written (R78, D9). -/
def execShlVx (x y : Reg) (s : State) : Host.Outcome State Fault Refusal :=
  complete (encode (.shlVx x y)) (returnNext (s.setResultFlag x (s.getV x <<< 1) (highBit (s.getV x)))) s

/-- RND Vx,kk (R125): a fresh free byte under the mask (D18, log 2). -/
def execRndVxKk (x : Reg) (kk : Byte) (s : State) : Host.Outcome State Fault Refusal :=
  complete (encode (.rndVxKk x kk))
    (returnNext { s.setV x (s.drawn &&& kk) with draws := s.draws + 1 }) s

end Sys2Proof.Machine
end

