-- ==== Sys2Proof/Machine/ControlFlow.lean ====
section
/-! DEFINITION. The control-flow instructions (41_control_flow.md, rules R100 to R109). -/
namespace Sys2Proof.Machine

/-- RET (R101). -/
def execRet (s : State) : Host.Outcome State Fault Refusal :=
  complete (encode .ret) (do let (a, s') ← pop s; returnJump a s') s

/-- JP addr (R102). -/
def execJpAddr (nnn : Addr12) (s : State) : Host.Outcome State Fault Refusal :=
  complete (encode (.jpAddr nnn)) (returnJump (zext16 nnn) s) s

/-- CALL addr (R103): the address of the instruction after the CALL is pushed (D7, C2). -/
def execCallAddr (nnn : Addr12) (s : State) : Host.Outcome State Fault Refusal :=
  complete (encode (.callAddr nnn)) (do let s' ← push (s.pc + 2) s; returnJump (zext16 nnn) s') s

/-- SE Vx,kk (R104). -/
def execSeVxKk (x : Reg) (kk : Byte) (s : State) : Host.Outcome State Fault Refusal :=
  complete (encode (.seVxKk x kk)) (returnSkipIf (s.getV x == kk) s) s

/-- SNE Vx,kk (R105). -/
def execSneVxKk (x : Reg) (kk : Byte) (s : State) : Host.Outcome State Fault Refusal :=
  complete (encode (.sneVxKk x kk)) (returnSkipIf (s.getV x != kk) s) s

/-- SE Vx,Vy (R106). -/
def execSeVxVy (x y : Reg) (s : State) : Host.Outcome State Fault Refusal :=
  complete (encode (.seVxVy x y)) (returnSkipIf (s.getV x == s.getV y) s) s

/-- SNE Vx,Vy (R107). -/
def execSneVxVy (x y : Reg) (s : State) : Host.Outcome State Fault Refusal :=
  complete (encode (.sneVxVy x y)) (returnSkipIf (s.getV x != s.getV y) s) s

/-- JP V0,addr (R108): the 16-bit sum, not reduced to 12 bits (D25). -/
def execJpV0Addr (nnn : Addr12) (s : State) : Host.Outcome State Fault Refusal :=
  complete (encode (.jpV0Addr nnn)) (returnJump (zext16 nnn + zextByte (s.getV 0)) s) s

end Sys2Proof.Machine
end

