-- ==== Sys2Proof/Machine/Display.lean ====
section
/-! DEFINITION. The framebuffer, its two operations, and the display instructions (44_display.md, rules R140 to R146). -/
namespace Sys2Proof.Machine

/-- `FB[r][c]` (R11, R31). -/
def Framebuffer.get (fb : Framebuffer) (r : Fin 32) (c : Fin 64) : Bool := (fb[r])[c]

/-- `FB[r][c] <- b` (R11). -/
def Framebuffer.set (fb : Framebuffer) (r : Fin 32) (c : Fin 64) (b : Bool) : Framebuffer :=
  Vector.set fb r.val ((fb[r]).set c.val b c.isLt) r.isLt

/-- `clear()`: every cell 0 (R141). -/
def Framebuffer.clear : Framebuffer := Vector.replicate 32 (Vector.replicate 64 false)

/-- What a draw has done so far (R143). -/
structure Drawing where
  fb        : Framebuffer
  collision : Bool
  toggled   : Bool

/-- A coordinate is the sum taken first and reduced modulo the grid size second (R143). -/
def wrapRow (k : Nat) : Fin 32 := ⟨k % 32, Nat.mod_lt _ (by decide)⟩

/-- As `wrapRow`, for columns. -/
def wrapCol (k : Nat) : Fin 64 := ⟨k % 64, Nat.mod_lt _ (by decide)⟩

/-- Sprite bit `j` of a row, the most significant bit first (R143). -/
def spriteBit (row : Byte) (j : Nat) : Bool := row.getLsbD (7 - j)

/-- Bit `j` of sprite row `i`: a 1 is XORed into its cell, a 0 leaves the cell alone (R143). -/
def drawBit (x0 y0 i : Nat) (row : Byte) (d : Drawing) (j : Nat) : Drawing :=
  if spriteBit row j then
    { fb := d.fb.set (wrapRow (y0 + i)) (wrapCol (x0 + j)) (d.fb.get (wrapRow (y0 + i)) (wrapCol (x0 + j)) ^^ true)
      collision := d.collision || d.fb.get (wrapRow (y0 + i)) (wrapCol (x0 + j))
      toggled := true }
  else d

/-- The eight bits of sprite row `i` (R143). -/
def drawRow (x0 y0 i : Nat) (row : Byte) (d : Drawing) : Drawing :=
  [0, 1, 2, 3, 4, 5, 6, 7].foldl (drawBit x0 y0 i row) d

/-- The sprite rows from row `i` on (R143). -/
def drawRows (x0 y0 : Nat) : Nat → List Byte → Drawing → Drawing
  | _, [], d => d
  | i, row :: rest, d => drawRows x0 y0 (i + 1) rest (drawRow x0 y0 i row d)

/-- `draw(x, y, spriteRows)` (R143): the new framebuffer, the collision (R144), and whether a pixel was toggled (R145). -/
def draw (x0 y0 : Nat) (rows : List Byte) (fb : Framebuffer) : Drawing :=
  drawRows x0 y0 0 rows ⟨fb, false, false⟩

/-- CLS (R141): no flag, no refresh (D20). -/
def execCls (s : State) : Host.Outcome State Fault Refusal :=
  complete (encode .cls) (returnNext { s with fb := Framebuffer.clear }) s

/-- The bytes DRW checks: none when `n = 0`, so that it cannot fault then, whatever `I` holds (R60, R142). -/
def checkRows (n : Nibble) (s : State) : Except Cause Unit :=
  if n = 0 then .ok () else checkRange (n.toNat - 1) s

/-- DRW Vx,Vy,n (R142): the coordinates are read before VF is written; the rows are `MEM[I .. I+n-1]` (D23, G3). -/
def execDrwVxVyN (x y : Reg) (n : Nibble) (s : State) : Host.Outcome State Fault Refusal :=
  complete (encode (.drwVxVyN x y n))
    (do
      checkRows n s
      let rows ← loadBytes s.index.toNat n.toNat s
      let d := draw (s.getV x).toNat (s.getV y).toNat rows s.fb
      return ⟨({ s with fb := d.fb }).setFlag d.collision, .next, d.toggled⟩) s

end Sys2Proof.Machine
end

