-- ==== Sys2Proof/Machine/IndexMemory.lean ====
section
/-! DEFINITION. The index-register and memory instructions (43_index_memory.md, rules R130 to R137). `I` is never changed by
a memory access (R130, D10). -/
namespace Sys2Proof.Machine

/-- LD I,addr (R131). -/
def execLdIAddr (nnn : Addr12) (s : State) : Host.Outcome State Fault Refusal :=
  complete (encode (.ldIAddr nnn)) (returnNext (s.setI (zext16 nnn))) s

/-- ADD I,Vx (R132): a sum that does not fit 16 bits raises IndexOverflow with the whole sum (D11). -/
def execAddIVx (x : Reg) (s : State) : Host.Outcome State Fault Refusal :=
  complete (encode (.addIVx x))
    (if 0xFFFF < s.index.toNat + (s.getV x).toNat then
      .error ⟨.boundsViolation .indexOverflow, s.index.toNat + (s.getV x).toNat⟩
    else returnNext (s.setI (s.index + zextByte (s.getV x)))) s

/-- LD F,Vx (R133): the whole byte times 5, exact in 16 bits (D26). -/
def execLdFVx (x : Reg) (s : State) : Host.Outcome State Fault Refusal :=
  complete (encode (.ldFVx x)) (returnNext (s.setI (zextByte (s.getV x) * 5))) s

/-- The three decimal digits of a byte, hundreds first, a byte each (R136, D22). -/
def decimalDigits (v : Byte) : List Byte :=
  [BitVec.ofNat 8 (v.toNat / 100), BitVec.ofNat 8 (v.toNat / 10 % 10), BitVec.ofNat 8 (v.toNat % 10)]

/-- LD B,Vx (R136). -/
def execLdBVx (x : Reg) (s : State) : Host.Outcome State Fault Refusal :=
  complete (encode (.ldBVx x))
    (do
      checkRange 2 s
      let s' ← storeBytes s.index.toNat (decimalDigits (s.getV x)) s
      returnNext s') s

/-- LD [I],Vx (R134). -/
def execLdMemVx (x : Reg) (s : State) : Host.Outcome State Fault Refusal :=
  complete (encode (.ldMemVx x))
    (do
      checkRange x.toNat s
      let s' ← storeBytes s.index.toNat (regBlock x s) s
      returnNext s') s

/-- LD Vx,[I] (R135). -/
def execLdVxMem (x : Reg) (s : State) : Host.Outcome State Fault Refusal :=
  complete (encode (.ldVxMem x))
    (do
      checkRange x.toNat s
      let bytes ← loadBytes s.index.toNat (x.toNat + 1) s
      returnNext (setRegs 0 bytes s)) s

end Sys2Proof.Machine
end

