-- ==== Sys2Proof/Machine/KeypadTimers.lean ====
section
/-! DEFINITION. The keypad and timer instructions (45_keypad_timers.md, rules R150 to R157). -/
namespace Sys2Proof.Machine

/-- SKP Vx (R151): a register above 15 is no key code and raises KeyIndex (D12). -/
def execSkpVx (x : Reg) (s : State) : Host.Outcome State Fault Refusal :=
  complete (encode (.skpVx x)) (do let k ← keyCode (s.getV x); returnSkipIf (s.key k) s) s

/-- SKNP Vx (R152). -/
def execSknpVx (x : Reg) (s : State) : Host.Outcome State Fault Refusal :=
  complete (encode (.sknpVx x)) (do let k ← keyCode (s.getV x); returnSkipIf (!s.key k) s) s

/-- LD Vx,DT (R153): DT before this step's tick. -/
def execLdVxDt (x : Reg) (s : State) : Host.Outcome State Fault Refusal :=
  complete (encode (.ldVxDt x)) (returnNext (s.setV x s.dt)) s

/-- LD Vx,K (R154): the lowest pressed key; with none pressed the step is a Hold and changes nothing (R93, D16). -/
def execLdVxK (x : Reg) (s : State) : Host.Outcome State Fault Refusal :=
  match lowestKey s with
  | none => .next (hold s)
  | some k => complete (encode (.ldVxK x)) (returnNext (s.setV x (BitVec.ofNat 8 k.val))) s

/-- LD DT,Vx (R155): the tick of the same step follows. -/
def execLdDtVx (x : Reg) (s : State) : Host.Outcome State Fault Refusal :=
  complete (encode (.ldDtVx x)) (returnNext { s with dt := s.getV x }) s

/-- LD ST,Vx (R156): the tick of the same step follows. -/
def execLdStVx (x : Reg) (s : State) : Host.Outcome State Fault Refusal :=
  complete (encode (.ldStVx x)) (returnNext { s with st := s.getV x }) s

end Sys2Proof.Machine
end

