-- ==== Sys2Proof/Machine/Step.lean ====
section
/-! DEFINITION. The step (rule R99), and placing an instruction where the step fetches it. -/
namespace Sys2Proof.Machine

/-- One step (R90, R99): halted, or fetch (R91), decode (R92), and the rest of the step, which `exec` holds whole: the key
wait (R93), execute (R94), the tick (R95), the directive (R96), or the fault entry (R97). The order of the stages is the
priority of the fatal conditions (R174). -/
def step (s : State) : Host.Outcome State Fault Refusal :=
  match s.fault with
  | some _ => .next (halt s)
  | none =>
    match fetch s with
    | .error c => .next (raise c none s)
    | .ok w =>
      match decode w with
      | none => .next (raise ⟨.unsupportedOpcode, w.toNat⟩ (some w) s)
      | some i => exec i s

/-- The state with an instruction's bytes at `PC`, high byte first (R56), where the next step fetches; nothing else changes.
It stands for the load of a program by the host's Reset (log 4). On a halted machine, or with `PC` above 4094, no step
fetches anything (R98, R91); in the second case nothing is placed, since the two bytes do not both exist (R61). -/
def State.withFetchWord (s : State) (nbits w : Nat) : State :=
  { s with
    mem := if s.pc.toNat ≤ 4094 then placeWord s.mem s.pc.toNat (BitVec.ofNat 16 (w % 2 ^ min nbits 16)) else s.mem }

end Sys2Proof.Machine
end

