-- ==== Sys2Proof/WellFormed.lean ====
section
/-! DEFINITION. The checks on what is given to the machine from outside: which words are instructions (rules R75, R77),
which images may be launched (R196), and which instruction terms an assembler writes (R78). An instruction term has no
further check: every operand carries its width in its type (R20, R73). -/
namespace Sys2Proof

/-- A word is legal when it matches one of the 34 patterns of R75; every other word is illegal (R77). -/
def legalWord (w : Word) : Bool := patterns.any (·.fits w)

/-- A program image fits below the end of memory (R53, R196). -/
def legalImage (rom : List Byte) : Bool := decide (rom.length ≤ Config.maxImage)

/-- The form an assembler emits: the ignored `y` field of SHR and SHL is 0 (R78). A word in any other form still decodes
and executes the same. -/
def Instr.canonical : Instr → Bool
  | .shrVx _ y => y == 0
  | .shlVx _ y => y == 0
  | .cls | .ret | .jpAddr _ | .callAddr _ | .seVxKk _ _ | .sneVxKk _ _ | .seVxVy _ _ | .ldVxKk _ _ | .addVxKk _ _
  | .ldVxVy _ _ | .orVxVy _ _ | .andVxVy _ _ | .xorVxVy _ _ | .addVxVy _ _ | .subVxVy _ _ | .subnVxVy _ _
  | .sneVxVy _ _ | .ldIAddr _ | .jpV0Addr _ | .rndVxKk _ _ | .drwVxVyN _ _ _ | .skpVx _ | .sknpVx _ | .ldVxDt _
  | .ldVxK _ | .ldDtVx _ | .ldStVx _ | .addIVx _ | .ldFVx _ | .ldBVx _ | .ldMemVx _ | .ldVxMem _ => true

end Sys2Proof
end

