-- ==== Sys2Proof/Machine/HostOps.lean ====
section
/-! DEFINITION. The host's side of the interface (70_reset_and_hazards.md, rules R190 to R206): Reset with a program image,
KeyUpdate, sequences of host operations, and the outputs the host reads. -/
namespace Sys2Proof.Machine

/-- The record of a Reset whose image does not fit (R173, last row). -/
def loadFailure (rom : List Byte) : FaultRecord := ⟨.resourceLoadFailure, none, none, rom.length⟩

/-- Reset(ROM) (R190, R195): every field at R42's value, the image verbatim from 0x200 on. An image longer than 3584 bytes
yields no machine (R196, D24, log 7). Nothing of the earlier state `s` survives but the model's own count of draws: DESIGN CHOICE, safe (log 2). The
spec leaves a second Reset's draws open (N6, D18), and a count set back to 0 would make them repeat the first run's bytes. -/
def resetWith (rom : List Byte) (s : State) : Host.Outcome State Fault Refusal :=
  if legalImage rom then
    .next { State.reset with mem := State.reset.mem.writeAll Config.progBase rom, draws := s.draws }
  else .fault (.resourceLoadFailure (loadFailure rom))

/-- KeyUpdate(keys) (R202): all 16 key states at once; nothing else changes, on a halted machine too. -/
def keyUpdate (keys : Vector Bool 16) (s : State) : State := { s with keys := keys }

/-- Step(rnd) (R200, R201): one step, in which RND draws the byte the host hands it; no other instruction reads it. -/
def stepWith (rnd : Byte) (s : State) : Host.Outcome State Fault Refusal :=
  match step { s with offered := some rnd } with
  | .next t => .next { t with offered := s.offered }
  | .fault r => .fault r
  | .refused r => .refused r

/-- What the host can do to the machine (R200). -/
inductive HostOp where
  | reset (rom : List Byte)
  | step (rnd : Byte)
  | keyUpdate (keys : Vector Bool 16)
  deriving DecidableEq, Repr

/-- One host operation. -/
def applyOp : HostOp → State → Host.Outcome State Fault Refusal
  | .reset rom, s => resetWith rom s
  | .step rnd, s => stepWith rnd s
  | .keyUpdate keys, s => .next (keyUpdate keys s)

/-- A finite sequence of host operations, in order (R201). -/
def runOps : List HostOp → State → Host.Outcome State Fault Refusal
  | [], s => .next s
  | op :: rest, s =>
    match applyOp op s with
    | .next t => runOps rest t
    | .fault r => .fault r
    | .refused r => .refused r

/-- The output `halted` (R205). -/
def halted (s : State) : Bool := s.fault.isSome

/-- The output `awaiting_key` as the function of the state R205 and R35 make it (log 10): the machine runs, the word at `PC`
is LD Vx,K, and no key is down. -/
def awaitingKey (s : State) : Bool :=
  !halted s && decide (s.pc.toNat ≤ 4094) && (lowestKey s).isNone &&
    match decode (fetchWord s) with
    | some (.ldVxK _) => true
    | _ => false

end Sys2Proof.Machine
end

