-- ==== Sys2Proof/Safety.lean ====
section
/-! DEFINITION. The terms claims are made in: what a good state is, how a run ends well, what a step leaves unchanged, and
which instruction may write which state. -/
namespace Sys2Proof.Machine

/-! ## Good states and good ends -/

/-- The machine has not gone wrong: a state with a record in the latch is never the result of a program (R172, R212). -/
def running (s : State) : Prop := s.fault = none

/-- The suggested good end of a run (R212, D32, log 12): running, and about to execute a JP to its own address. The timers
may still be counting. -/
def endedWell (s : State) : Prop :=
  running s ∧ s.pc.toNat ≤ 4094 ∧ ∃ nnn, decode (fetchWord s) = some (.jpAddr nnn) ∧ zext16 nnn = s.pc

/-! ## Invariants -/

/-- Memory is in its canonical form: entries only at the 4096 addresses of R50, in rising order, none redundant (log 5). -/
def MemoryCanonical (s : State) : Prop := s.mem.wf = true

/-- What R25 derives, so that the 16 bits of `PC` never overflow: `PC` is at most `0xFFF + 0xFF` and every stacked address at
most `4094 + 2`. -/
def PcBounded (s : State) : Prop := s.pc.toNat ≤ 0x10FE ∧ ∀ k : Fin 16, (s.stack[k]).toNat ≤ 0x1000

/-! ## What stays unchanged -/

def KeepsRegs (s t : State) : Prop := ∀ r, t.getV r = s.getV r
def KeepsIndex (s t : State) : Prop := t.index = s.index
def KeepsStack (s t : State) : Prop := t.sp = s.sp ∧ ∀ k : Fin 16, t.stack[k] = s.stack[k]
def KeepsMem (s t : State) : Prop := ∀ a, t.mem.read a = s.mem.read a
def KeepsFb (s t : State) : Prop := ∀ r c, t.fb.get r c = s.fb.get r c
def KeepsKeys (s t : State) : Prop := ∀ k, t.key k = s.key k
def KeepsFault (s t : State) : Prop := t.fault = s.fault
def KeepsDraws (s t : State) : Prop := t.draws = s.draws
def KeepsOffered (s t : State) : Prop := t.offered = s.offered

/-- A byte of memory is unchanged at every address outside the `n` bytes from `a` on. -/
def KeepsMemOutside (a n : Nat) (s t : State) : Prop := ∀ b, b < a ∨ a + n ≤ b → t.mem.read b = s.mem.read b

/-- The timers after a completed step whose instruction left `dt` and `st` in them, and the `beep` (R95). -/
def TicksFrom (dt st : Byte) (t : State) : Prop :=
  t.dt.toNat = dt.toNat - 1 ∧ t.st.toNat = st.toNat - 1 ∧ (t.out.beep = true ↔ st.toNat = 1)

/-- The step completed (R90), `PC` is where the directive sends it (R96), and no `refresh` was emitted. -/
def CompletesAt (pc : Word) (t : State) : Prop := t.pc = pc ∧ t.out.outcome = .done ∧ t.out.refresh = false

/-- All that no instruction writes in completing. -/
def KeepsHost (s t : State) : Prop := KeepsKeys s t ∧ KeepsFault s t ∧ KeepsOffered s t

/-- The frame of an instruction that writes general registers at most and returns `Next`: the rest of the machine as it was,
the timers ticked, `PC` two further (R110). `draws` is left out, for RND. -/
def WritesRegsOnly (s t : State) : Prop :=
  CompletesAt (s.pc + 2) t ∧ TicksFrom s.dt s.st t ∧ KeepsIndex s t ∧ KeepsStack s t ∧ KeepsMem s t ∧ KeepsFb s t ∧ KeepsHost s t

/-- The frame of an instruction that writes nothing but `PC` (R100). -/
def WritesPcOnly (pc : Word) (s t : State) : Prop :=
  CompletesAt pc t ∧ TicksFrom s.dt s.st t ∧ KeepsRegs s t ∧ KeepsIndex s t ∧ KeepsStack s t ∧ KeepsMem s t ∧ KeepsFb s t ∧
    KeepsHost s t ∧ KeepsDraws s t

/-- A step that raises: the latch holds the record of R173 and nothing else is written (R97, R171, D13). -/
def raised (kind : FaultKind) (opcode : Option Word) (value : Nat) (s : State) : State :=
  { s with fault := some ⟨kind, some s.pc, opcode, value⟩, out := ⟨.fault, false, false⟩ }

end Sys2Proof.Machine

namespace Sys2Proof
open Machine

/-! ## Which instruction may write what -/

/-- The instructions that write `V[x]` as their named destination, `V[0]` to `V[x]`, or `VF` implicitly (R22). -/
def Instr.mayWriteReg : Instr → Reg → Bool
  | .ldVxKk x _, r | .addVxKk x _, r | .ldVxVy x _, r | .orVxVy x _, r | .andVxVy x _, r | .xorVxVy x _, r
  | .rndVxKk x _, r | .ldVxDt x, r | .ldVxK x, r => r == x
  | .addVxVy x _, r | .subVxVy x _, r | .shrVx x _, r | .subnVxVy x _, r | .shlVx x _, r => r == x || r == VF
  | .drwVxVyN _ _ _, r => r == VF
  | .ldVxMem x, r => decide (r.toNat ≤ x.toNat)
  | .cls, _ | .ret, _ | .jpAddr _, _ | .callAddr _, _ | .seVxKk _ _, _ | .sneVxKk _ _, _ | .seVxVy _ _, _
  | .sneVxVy _ _, _ | .ldIAddr _, _ | .jpV0Addr _, _ | .skpVx _, _ | .sknpVx _, _ | .ldDtVx _, _ | .ldStVx _, _
  | .addIVx _, _ | .ldFVx _, _ | .ldBVx _, _ | .ldMemVx _, _ => false

/-- The instructions whose effect column gives VF a flag (R33). -/
def Instr.writesFlag : Instr → Prop
  | .addVxVy _ _ | .subVxVy _ _ | .subnVxVy _ _ | .shrVx _ _ | .shlVx _ _ | .drwVxVyN _ _ _ => True
  | _ => False

/-- LD I,addr, ADD I,Vx and LD F,Vx write `I` (R23). -/
def Instr.writesIndex : Instr → Prop
  | .ldIAddr _ | .addIVx _ | .ldFVx _ => True
  | _ => False

/-- CALL and RET move the stack (R26, R27). -/
def Instr.movesStack : Instr → Prop
  | .callAddr _ | .ret => True
  | _ => False

/-- LD B,Vx and LD [I],Vx write memory (R58). -/
def Instr.storesMem : Instr → Prop
  | .ldBVx _ | .ldMemVx _ => True
  | _ => False

/-- CLS and DRW write the framebuffer (R31). -/
def Instr.writesFb : Instr → Prop
  | .cls | .drwVxVyN _ _ _ => True
  | _ => False

/-- SKP, SKNP and LD Vx,K read the keys (R32). -/
def Instr.readsKeys : Instr → Prop
  | .skpVx _ | .sknpVx _ | .ldVxK _ => True
  | _ => False

/-- The value an instruction leaves in `DT` for the tick (R28, R155). -/
def Instr.dtBeforeTick (s : State) : Instr → Byte
  | .ldDtVx x => s.getV x
  | _ => s.dt

/-- The value an instruction leaves in `ST` for the tick (R29, R156). -/
def Instr.stBeforeTick (s : State) : Instr → Byte
  | .ldStVx x => s.getV x
  | _ => s.st

/-- JP addr, CALL addr, RET and JP V0,addr return `Jump` (R25). -/
def Instr.jumps : Instr → Prop
  | .jpAddr _ | .callAddr _ | .ret | .jpV0Addr _ => True
  | _ => False

/-- SE, SNE (both forms), SKP and SKNP may return `Skip` (R25). -/
def Instr.maySkip : Instr → Prop
  | .seVxKk _ _ | .sneVxKk _ _ | .seVxVy _ _ | .sneVxVy _ _ | .skpVx _ | .sknpVx _ => True
  | _ => False

end Sys2Proof

namespace Sys2Proof.Machine

/-! ## The draw engine, pixel by pixel -/

/-- Cell `(r, c)` is the target of sprite bit `j` of row `i`, and that bit is 1 (R143). -/
def Hits (x0 y0 : Nat) (rows : List Byte) (r : Fin 32) (c : Fin 64) (i j : Nat) : Prop :=
  i < rows.length ∧ j < 8 ∧ (rows.getD i 0).getLsbD (7 - j) = true ∧ r.val = (y0 + i) % 32 ∧ c.val = (x0 + j) % 64

/-- Some sprite bit equal to 1 has cell `(r, c)` as its target. -/
def Covered (x0 y0 : Nat) (rows : List Byte) (r : Fin 32) (c : Fin 64) : Prop := ∃ i j, Hits x0 y0 rows r c i j

/-- Some bit of the sprite is 1 (R145). -/
def SomeBitSet (rows : List Byte) : Prop := ∃ i j, i < rows.length ∧ j < 8 ∧ (rows.getD i 0).getLsbD (7 - j) = true

/-- What a draw of at most 15 rows does to the framebuffer (R143, R144): each covered pixel flips, no other changes. -/
def Flips (x0 y0 : Nat) (rows : List Byte) (before after : Framebuffer) : Prop :=
  ∀ r c, (Covered x0 y0 rows r c → after.get r c = !before.get r c) ∧ (¬ Covered x0 y0 rows r c → after.get r c = before.get r c)

/-- A draw collides when some covered pixel was already 1 (R144). -/
def Collides (x0 y0 : Nat) (rows : List Byte) (before : Framebuffer) : Prop :=
  ∃ r c, Covered x0 y0 rows r c ∧ before.get r c = true

/-- The `n` bytes of memory from `a` on. -/
def memRows (s : State) (a n : Nat) : List Byte := (List.range n).map fun i => s.mem.read (a + i)

/-! ## Memory under a store -/

/-- The byte at `b` once the bytes of `row` are stored from `a` on: the one stored there, or the one of before (R63). -/
def overlaid (a : Nat) (row : List Byte) (s : State) (b : Nat) : Byte :=
  if a ≤ b ∧ b < a + row.length then row.getD (b - a) 0 else s.mem.read b

/-- `V[0]` to `V[x]` (R134). -/
def regRow (x : Reg) (s : State) : List Byte := (List.range (x.toNat + 1)).map fun k => s.getV (BitVec.ofNat 4 k)

/-- Hundreds, tens and ones, a byte each (R136, D22). -/
def digitRow (v : Nat) : List Byte := [BitVec.ofNat 8 (v / 100), BitVec.ofNat 8 (v / 10 % 10), BitVec.ofNat 8 (v % 10)]

end Sys2Proof.Machine
end

