-- ==== Sys2Proof/Certificates/Slice0/Obligations.lean ====
section
/-! DEFINITION. The statements for the provers, each from a numbered rule of the spec (its docstring says which). -/

open Sys2Proof Sys2Proof.Machine

/-! ## Encoding (30_encoding.md) -/

/-- Words of every group, written out from R71 and R75 (the spot checks of 95_test_vectors.md 2.7), and two illegal ones. -/
def Obligations.SampleWordsDecode : Prop :=
  decode 0x00E0 = some .cls ∧ decode 0x00EE = some .ret ∧ decode 0x1204 = some (.jpAddr 0x204) ∧
  decode 0x2FFF = some (.callAddr 0xFFF) ∧ decode 0x3A7F = some (.seVxKk 0xA 0x7F) ∧ decode 0x8AB5 = some (.subVxVy 0xA 0xB) ∧
  decode 0xA123 = some (.ldIAddr 0x123) ∧ decode 0xD12F = some (.drwVxVyN 1 2 15) ∧ decode 0xE1A1 = some (.sknpVx 1) ∧
  decode 0xF155 = some (.ldMemVx 1) ∧ decode 0x0000 = none ∧ decode 0x5121 = none

/-- Decoding what the encoder writes gives the instruction back, every operand at every value (R71, R75). -/
def Obligations.DecodeOfEncodeIsTheInstruction : Prop := ∀ i : Instr, decode (encode i) = some i

/-- A decoded word is exactly what the encoder writes for its instruction: no bit of a word is lost in decoding, so the opcode
a fault record holds is the fetched word (R41, log 9). -/
def Obligations.EncodeOfDecodeIsTheWord : Prop := ∀ (w : Word) (i : Instr), decode w = some i → encode i = w

/-- The decoder, written by first nibble (R74), accepts exactly the words that fit a mask and match of R75's table (R76, R77). -/
def Obligations.DecodesExactlyTheLegalWords : Prop := ∀ w : Word, (decode w).isSome = legalWord w

/-- No word fits two rows of R75's table (R76). -/
def Obligations.NoTwoPatternsOverlap : Prop := ∀ w : Word, (patterns.filter (·.fits w)).length ≤ 1

/-! ## The step cycle (40_step_cycle.md) -/

/-- Where the machine runs and the word at PC decodes, the step is the execution of that instruction; nothing is added around
it (R94, R99). -/
def Obligations.StepRunsTheDecodedInstruction : Prop :=
  ∀ (s : State) (i : Instr), running s → s.pc.toNat ≤ 4094 → decode (fetchWord s) = some i → step s = exec i s

/-- The fetched word is big-endian, at any parity of PC (R56, R57, R91). -/
def Obligations.FetchIsBigEndianUpTo4094 : Prop :=
  ∀ s : State,
    (s.pc.toNat ≤ 4094 → ∃ w, fetch s = .ok w ∧
      w.toNat = (s.mem.read s.pc.toNat).toNat * 256 + (s.mem.read (s.pc.toNat + 1)).toNat) ∧
    (4094 < s.pc.toNat → fetch s = .error ⟨.boundsViolation .pcOutOfRange, s.pc.toNat⟩)

/-- A step that begins with PC above 4094 raises PcOutOfRange, no opcode recorded (R91, R163); a step that fetches an illegal word
raises UnsupportedOpcode with that word (R92, R161). The frozen rest is the spec's own decision D13. -/
def Obligations.FetchAndDecodeFaults : Prop :=
  ∀ s : State, running s →
    (4094 < s.pc.toNat → step s = .next (raised (.boundsViolation .pcOutOfRange) none s.pc.toNat s)) ∧
    (s.pc.toNat ≤ 4094 → legalWord (fetchWord s) = false →
      step s = .next (raised .unsupportedOpcode (some (fetchWord s)) (fetchWord s).toNat s))

/-- A step begun with a record in the latch has outcome Halted and changes nothing, for ever (R98): any number of steps, with any draws,
leaves all but the model's own `out` (log 3) as it was; and only Reset clears the latch: no step and no KeyUpdate changes a record. That
a halted machine's step is an unchanged next state is the model's choice (log 1), rendering the spec's own decision D13. -/
def Obligations.HaltedUntilReset : Prop :=
  (∀ (s : State) (r : FaultRecord) (rnds : List Byte), s.fault = some r → rnds ≠ [] →
    runOps (rnds.map .step) s = .next { s with out := ⟨.halted, false, false⟩ }) ∧
  (∀ (s t : State) (r : FaultRecord) (op : HostOp), s.fault = some r → (∀ rom, op ≠ .reset rom) → applyOp op s = .next t →
    t.fault = some r)

/-- A step that raises writes the latch and nothing else (R97, R171, the spec's decision D13): no instruction's write, no tick,
no event, PC kept. -/
def Obligations.FaultingStepWritesOnlyTheLatch : Prop :=
  ∀ s t : State, running s → step s = .next t → ¬ running t →
    t = { s with fault := t.fault, out := ⟨.fault, false, false⟩ }

/-- Every record a step sets is a row of R173's table: kind, code, pc, opcode and value, with the condition that raises it (R163 to
R168, R174, the spec's decision D14). The opcode is the fetched word, or absent when the fetch faulted. -/
def Obligations.FaultRecordsFollowTheTable : Prop :=
  ∀ (s t : State) (r : FaultRecord), running s → step s = .next t → t.fault = some r →
    r.pc = some s.pc ∧
    ((r.kind = .boundsViolation .pcOutOfRange ∧ r.code = 2 ∧ r.opcode = none ∧ r.value = s.pc.toNat ∧ 4094 < s.pc.toNat) ∨
     (s.pc.toNat ≤ 4094 ∧ r.opcode = some (fetchWord s) ∧
      ((r.kind = .unsupportedOpcode ∧ r.code = 1 ∧ r.value = (fetchWord s).toNat ∧ decode (fetchWord s) = none) ∨
       (∃ i, decode (fetchWord s) = some i ∧
        ((r.kind = .boundsViolation .memAddress ∧ r.code = 3 ∧ r.value = max s.index.toNat 0x1000 ∧
            ((∃ x y n, i = .drwVxVyN x y n ∧ n ≠ 0 ∧ 0xFFF < s.index.toNat + (n.toNat - 1)) ∨
             (∃ x, i = .ldBVx x ∧ 0xFFF < s.index.toNat + 2) ∨
             (∃ x, (i = .ldMemVx x ∨ i = .ldVxMem x) ∧ 0xFFF < s.index.toNat + x.toNat))) ∨
         (r.kind = .boundsViolation .stackOverflow ∧ r.code = 4 ∧ r.value = 16 ∧ (∃ nnn, i = .callAddr nnn) ∧ s.sp.val = 16) ∨
         (r.kind = .boundsViolation .stackUnderflow ∧ r.code = 5 ∧ r.value = 0 ∧ i = .ret ∧ s.sp.val = 0) ∨
         (r.kind = .boundsViolation .indexOverflow ∧ r.code = 6 ∧
            (∃ x, i = .addIVx x ∧ r.value = s.index.toNat + (s.getV x).toNat ∧ 0xFFFF < r.value)) ∨
         (r.kind = .boundsViolation .keyIndex ∧ r.code = 7 ∧
            (∃ x, (i = .skpVx x ∨ i = .sknpVx x) ∧ r.value = (s.getV x).toNat ∧ 15 < r.value)))))))

/-- Every step answers a state, by one of the four outcomes of R90's table: Done leaves the machine running, Hold and Halted change
nothing (but the model's own `out`), Fault sets the latch. -/
def Obligations.OutcomesAreTheTable : Prop :=
  ∀ s : State, ∃ t, step s = .next t ∧
    (t.out.outcome = .done → running s ∧ running t) ∧
    (t.out.outcome = .hold → running s ∧ t = { s with out := ⟨.hold, false, false⟩ }) ∧
    (t.out.outcome = .fault → running s ∧ ¬ running t) ∧
    (t.out.outcome = .halted ↔ ¬ running s) ∧
    (t.out.outcome = .halted → t = { s with out := ⟨.halted, false, false⟩ })

/-- The timer tick (R95): in every completed step each timer counts down from what the instruction left in it, stopping at 0, and
`beep` is emitted exactly when ST was 1 then; in every other step the timers stand still and nothing is emitted. -/
def Obligations.TimersTickOncePerCompletedStep : Prop :=
  ∀ s t : State, step s = .next t →
    (t.out.outcome = .done → ∀ i, decode (fetchWord s) = some i → TicksFrom (i.dtBeforeTick s) (i.stBeforeTick s) t) ∧
    (t.out.outcome ≠ .done → t.dt = s.dt ∧ t.st = s.st ∧ t.out.beep = false)

/-- How PC advances (R25, R96): by 2; by 4 only for the skip instructions; replaced only by the four jumps; and not at all in a step
that does not complete. -/
def Obligations.PcMovesByTwoOrFourOrJumps : Prop :=
  ∀ s t : State, step s = .next t →
    (t.out.outcome = .done → ∀ i, decode (fetchWord s) = some i →
      t.pc = s.pc + 2 ∨ (i.maySkip ∧ t.pc = s.pc + 4) ∨ i.jumps) ∧
    (t.out.outcome ≠ .done → t.pc = s.pc)

/-- A general register changes only where R22's list lets the instruction write it; every other is unchanged. -/
def Obligations.OnlyListedRegistersChange : Prop :=
  ∀ (i : Instr) (s t : State) (r : Reg), exec i s = .next t → i.mayWriteReg r = false → t.getV r = s.getV r

/-- After a completed flag-writing instruction VF is 0 or 1 (R21, R33, R37). -/
def Obligations.FlagIsZeroOrOne : Prop :=
  ∀ (i : Instr) (s t : State), exec i s = .next t → t.out.outcome = .done → i.writesFlag → t.getV VF = 0 ∨ t.getV VF = 1

/-- Who may write the rest of the state (R23, R26, R27, R31, R32, R58): I, the stack, memory and the framebuffer change only by the
instructions named there, the keys and the draw the host hands a step (log 2) by none. -/
def Obligations.OnlyNamedInstructionsWriteTheRest : Prop :=
  ∀ (i : Instr) (s t : State), exec i s = .next t →
    (¬ i.writesIndex → KeepsIndex s t) ∧ (¬ i.movesStack → KeepsStack s t) ∧ (¬ i.storesMem → KeepsMem s t) ∧
    (¬ i.writesFb → KeepsFb s t) ∧ KeepsKeys s t ∧ KeepsOffered s t

/-- The keys are read by SKP, SKNP and LD Vx,K alone (R32): any other instruction does the same whatever keys are down, and leaves
them down. -/
def Obligations.OnlyKeyInstructionsReadTheKeys : Prop :=
  ∀ (i : Instr) (s t : State) (keys : Vector Bool 16), ¬ i.readsKeys → exec i s = .next t →
    exec i { s with keys := keys } = .next { t with keys := keys }

/-- No rule reads the outputs of the step before (R203; the model's own field, log 3): a step answers the same whatever they were. -/
def Obligations.OutputsAreNeverRead : Prop := ∀ (s : State) (o : Outputs), step { s with out := o } = step s

/-- The events of a step (R203): `refresh` only from a completed DRW, `beep` only from the tick of a completed step. -/
def Obligations.EventsHaveTheirCauses : Prop :=
  ∀ s t : State, step s = .next t →
    (t.out.refresh = true → t.out.outcome = .done ∧ ∃ x y n, decode (fetchWord s) = some (.drwVxVyN x y n)) ∧
    (t.out.beep = true → t.out.outcome = .done ∧ t.st = 0)

/-- `awaiting_key` (R205; the model computes the function of the state, log 10): a step holds exactly when it is 1 as the step begins,
and it is then still 1 after. -/
def Obligations.HoldsExactlyWhenAwaitingKey : Prop :=
  ∀ s t : State, step s = .next t →
    (t.out.outcome = .hold ↔ awaitingKey s = true) ∧ (t.out.outcome = .hold → awaitingKey t = true)

/-- The suggested good end of a run (R212, the spec's decision D32, log 12): a machine about to JP to its own address stays there; PC, V,
I, SP, STACK, MEM and FB are stable, and the timers still run. -/
def Obligations.SelfJumpIsAStableEnd : Prop :=
  ∀ s : State, endedWell s → ∃ t, step s = .next t ∧ endedWell t ∧ WritesPcOnly s.pc s t

/-! ## Invariants -/

/-- Every step keeps memory in its canonical form (the model's representation, log 5, of the 4096 bytes of R50). -/
def Obligations.StepKeepsMemoryCanonical : Prop :=
  ∀ s t : State, MemoryCanonical s → step s = .next t → MemoryCanonical t

/-- Every step keeps PC and the stacked addresses within what R25 derives, so that no update of PC loses a carry. -/
def Obligations.StepKeepsPcBounded : Prop := ∀ s t : State, PcBounded s → step s = .next t → PcBounded t

/-- The state after reset meets both invariants and runs. -/
def Obligations.ResetMeetsTheInvariants : Prop :=
  MemoryCanonical State.reset ∧ PcBounded State.reset ∧ running State.reset

/-- Every host operation (R200, R201), a Reset with any image, a step with any draw, a KeyUpdate with any keys, keeps both invariants in
any state; so any sequence of them from reset ends in a state that meets both. -/
def Obligations.EveryReachableStateMeetsTheInvariants : Prop :=
  (∀ (op : HostOp) (s t : State), MemoryCanonical s → PcBounded s → applyOp op s = .next t → MemoryCanonical t ∧ PcBounded t) ∧
  (∀ (ops : List HostOp) (t : State), runOps ops State.reset = .next t → MemoryCanonical t ∧ PcBounded t)

/-! ## Control flow (41_control_flow.md) -/

/-- JP addr (R102). -/
def Obligations.JumpGoesToTheAddress : Prop :=
  ∀ (nnn : Addr12) (s : State), ∃ t, exec (.jpAddr nnn) s = .next t ∧ t.pc.toNat = nnn.toNat ∧ WritesPcOnly t.pc s t

/-- CALL addr (R103): with fewer than 16 entries in use the address of the next instruction is pushed (the spec's decision D7). -/
def Obligations.CallPushesTheReturnAddress : Prop :=
  ∀ (nnn : Addr12) (s : State), s.sp.val < 16 →
    ∃ t, exec (.callAddr nnn) s = .next t ∧ t.sp.val = s.sp.val + 1 ∧
      (∀ k : Fin 16, t.stack[k] = if k.val = s.sp.val then s.pc + 2 else s.stack[k]) ∧
      t.pc.toNat = nnn.toNat ∧ CompletesAt t.pc t ∧ TicksFrom s.dt s.st t ∧ KeepsRegs s t ∧ KeepsIndex s t ∧ KeepsMem s t ∧
      KeepsFb s t ∧ KeepsHost s t ∧ KeepsDraws s t

/-- RET (R101): with an entry in use it is popped into PC, nothing added; the stack's entries stay. -/
def Obligations.RetPopsIntoPc : Prop :=
  ∀ (s : State) (k : Fin 16), s.sp.val = k.val + 1 →
    ∃ t, exec .ret s = .next t ∧ t.sp.val = k.val ∧ (∀ j : Fin 16, t.stack[j] = s.stack[j]) ∧
      CompletesAt s.stack[k] t ∧ TicksFrom s.dt s.st t ∧ KeepsRegs s t ∧ KeepsIndex s t ∧ KeepsMem s t ∧
      KeepsFb s t ∧ KeepsHost s t ∧ KeepsDraws s t

/-- CALL with 16 entries in use raises StackOverflow, RET with none StackUnderflow (R101, R103, R165, R166); the frozen rest is the
spec's decision D13, the record D14. -/
def Obligations.StackFaultsAtItsEnds : Prop :=
  (∀ (nnn : Addr12) (s : State), s.sp.val = 16 →
    exec (.callAddr nnn) s = .next (raised (.boundsViolation .stackOverflow) (some (encode (.callAddr nnn))) 16 s)) ∧
  (∀ s : State, s.sp.val = 0 →
    exec .ret s = .next (raised (.boundsViolation .stackUnderflow) (some 0x00EE) 0 s))

/-- A CALL followed by a RET is back at the instruction after the CALL with the stack pointer as it was (R109). -/
def Obligations.CallThenRetReturns : Prop :=
  ∀ (nnn : Addr12) (s : State), s.sp.val < 16 →
    ∃ t u, exec (.callAddr nnn) s = .next t ∧ exec .ret t = .next u ∧ u.pc = s.pc + 2 ∧ u.sp = s.sp ∧ KeepsFault s u

/-- SE Vx,kk (R104), SNE Vx,kk (R105), SE Vx,Vy (R106), SNE Vx,Vy (R107): Skip or Next by the comparison, nothing else written. -/
def Obligations.ComparesSkipOrNot : Prop :=
  ∀ (x y : Reg) (kk : Byte) (s : State),
    (∃ t, exec (.seVxKk x kk) s = .next t ∧ WritesPcOnly (if s.getV x = kk then s.pc + 4 else s.pc + 2) s t) ∧
    (∃ t, exec (.sneVxKk x kk) s = .next t ∧ WritesPcOnly (if s.getV x ≠ kk then s.pc + 4 else s.pc + 2) s t) ∧
    (∃ t, exec (.seVxVy x y) s = .next t ∧ WritesPcOnly (if s.getV x = s.getV y then s.pc + 4 else s.pc + 2) s t) ∧
    (∃ t, exec (.sneVxVy x y) s = .next t ∧ WritesPcOnly (if s.getV x ≠ s.getV y then s.pc + 4 else s.pc + 2) s t)

/-- JP V0,addr (R108): the sum is not reduced to 12 bits (the spec's decision D25). -/
def Obligations.IndexedJumpAddsV0 : Prop :=
  ∀ (nnn : Addr12) (s : State),
    ∃ t, exec (.jpV0Addr nnn) s = .next t ∧ t.pc.toNat = nnn.toNat + (s.getV 0).toNat ∧ WritesPcOnly t.pc s t

/-! ## Registers (42_alu.md) -/

/-- LD Vx,kk (R111), LD Vx,Vy (R112), LD Vx,DT (R153, DT before this step's tick): the register named, no other, no flag. -/
def Obligations.LoadsAssignTheRegister : Prop :=
  ∀ (x y : Reg) (kk : Byte) (s : State),
    (∃ t, exec (.ldVxKk x kk) s = .next t ∧ (∀ r, t.getV r = if r = x then kk else s.getV r) ∧
      WritesRegsOnly s t ∧ KeepsDraws s t) ∧
    (∃ t, exec (.ldVxVy x y) s = .next t ∧ (∀ r, t.getV r = if r = x then s.getV y else s.getV r) ∧
      WritesRegsOnly s t ∧ KeepsDraws s t) ∧
    (∃ t, exec (.ldVxDt x) s = .next t ∧ (∀ r, t.getV r = if r = x then s.dt else s.getV r) ∧
      WritesRegsOnly s t ∧ KeepsDraws s t)

/-- OR (R113), AND (R114), XOR (R115): bit by bit over 8 bits, no flag: VF is written only as the destination. -/
def Obligations.LogicIsBitwiseWithNoFlag : Prop :=
  ∀ (x y : Reg) (s : State),
    (∃ t, exec (.orVxVy x y) s = .next t ∧
      (∀ k, (t.getV x).getLsbD k = ((s.getV x).getLsbD k || (s.getV y).getLsbD k)) ∧ (∀ r, r ≠ x → t.getV r = s.getV r) ∧
      WritesRegsOnly s t ∧ KeepsDraws s t) ∧
    (∃ t, exec (.andVxVy x y) s = .next t ∧
      (∀ k, (t.getV x).getLsbD k = ((s.getV x).getLsbD k && (s.getV y).getLsbD k)) ∧ (∀ r, r ≠ x → t.getV r = s.getV r) ∧
      WritesRegsOnly s t ∧ KeepsDraws s t) ∧
    (∃ t, exec (.xorVxVy x y) s = .next t ∧
      (∀ k, (t.getV x).getLsbD k = ((s.getV x).getLsbD k ^^ (s.getV y).getLsbD k)) ∧ (∀ r, r ≠ x → t.getV r = s.getV r) ∧
      WritesRegsOnly s t ∧ KeepsDraws s t)

/-- ADD Vx,kk (R116): wraps modulo 256, no flag. -/
def Obligations.AddImmediateWrapsWithNoFlag : Prop :=
  ∀ (x : Reg) (kk : Byte) (s : State),
    ∃ t, exec (.addVxKk x kk) s = .next t ∧ (t.getV x).toNat = ((s.getV x).toNat + kk.toNat) % 256 ∧
      (∀ r, r ≠ x → t.getV r = s.getV r) ∧ WritesRegsOnly s t ∧ KeepsDraws s t

/-- ADD Vx,Vy (R117): the sum modulo 256, and VF the carry out; with x = F, VF ends as the flag (R122, the spec's decision D8). -/
def Obligations.AddWritesSumAndCarry : Prop :=
  ∀ (x y : Reg) (s : State),
    ∃ t, exec (.addVxVy x y) s = .next t ∧
      (x ≠ VF → (t.getV x).toNat = ((s.getV x).toNat + (s.getV y).toNat) % 256) ∧
      t.getV VF = (if 255 < (s.getV x).toNat + (s.getV y).toNat then 1 else 0) ∧
      (∀ r, r ≠ x → r ≠ VF → t.getV r = s.getV r) ∧ WritesRegsOnly s t ∧ KeepsDraws s t

/-- SUB (R118) and SUBN (R120): the difference modulo 256, and VF = 1 iff no borrow, equality included; with x = F, VF ends as the
flag (R122, the spec's decision D8). -/
def Obligations.SubtractsWriteDifferenceAndNoBorrow : Prop :=
  ∀ (x y : Reg) (s : State),
    (∃ t, exec (.subVxVy x y) s = .next t ∧
      (x ≠ VF → (t.getV x).toNat = ((s.getV x).toNat + 256 - (s.getV y).toNat) % 256) ∧
      t.getV VF = (if (s.getV y).toNat ≤ (s.getV x).toNat then 1 else 0) ∧
      (∀ r, r ≠ x → r ≠ VF → t.getV r = s.getV r) ∧ WritesRegsOnly s t ∧ KeepsDraws s t) ∧
    (∃ t, exec (.subnVxVy x y) s = .next t ∧
      (x ≠ VF → (t.getV x).toNat = ((s.getV y).toNat + 256 - (s.getV x).toNat) % 256) ∧
      t.getV VF = (if (s.getV x).toNat ≤ (s.getV y).toNat then 1 else 0) ∧
      (∀ r, r ≠ x → r ≠ VF → t.getV r = s.getV r) ∧ WritesRegsOnly s t ∧ KeepsDraws s t)

/-- SHR (R119) and SHL (R121): one position, Vx only, whatever the ignored y (the spec's decision D9), VF the bit shifted out; with
x = F, VF ends as the flag (R122, D8). -/
def Obligations.ShiftsWriteTheBitShiftedOut : Prop :=
  ∀ (x y : Reg) (s : State),
    (∃ t, exec (.shrVx x y) s = .next t ∧
      (x ≠ VF → (t.getV x).toNat = (s.getV x).toNat / 2) ∧
      (t.getV VF).toNat = (s.getV x).toNat % 2 ∧
      (∀ r, r ≠ x → r ≠ VF → t.getV r = s.getV r) ∧ WritesRegsOnly s t ∧ KeepsDraws s t) ∧
    (∃ t, exec (.shlVx x y) s = .next t ∧
      (x ≠ VF → (t.getV x).toNat = (s.getV x).toNat * 2 % 256) ∧
      (t.getV VF).toNat = (s.getV x).toNat / 128 ∧
      (∀ r, r ≠ x → r ≠ VF → t.getV r = s.getV r) ∧ WritesRegsOnly s t ∧ KeepsDraws s t)

/-- RND Vx,kk (R125): a free byte under the mask, whatever the byte (the spec's decision D18, log 2): the byte the host's Step(rnd)
handed the step, or the next free byte where it handed none; no bit outside the mask is set, and each RND takes a fresh draw. A host
Step(rnd) (R200) whose instruction is RND draws that `rnd`, and no other instruction reads the byte handed. -/
def Obligations.RandomByteStaysUnderTheMask : Prop :=
  (∀ (x : Reg) (kk : Byte) (s : State),
    ∃ t, exec (.rndVxKk x kk) s = .next t ∧ (∀ b, s.offered = some b → t.getV x = b &&& kk) ∧
      (s.offered = none → t.getV x = Config.rnd s.draws &&& kk) ∧
      t.getV x &&& ~~~kk = 0 ∧ (∀ r, r ≠ x → t.getV r = s.getV r) ∧ t.draws = s.draws + 1 ∧ WritesRegsOnly s t) ∧
  (∀ (rnd : Byte) (x : Reg) (kk : Byte) (s : State),
    running s → s.pc.toNat ≤ 4094 → decode (fetchWord s) = some (.rndVxKk x kk) →
    ∃ t, applyOp (.step rnd) s = .next t ∧ t.getV x = rnd &&& kk ∧ (∀ r, r ≠ x → t.getV r = s.getV r) ∧
      t.draws = s.draws + 1 ∧ WritesRegsOnly s t) ∧
  (∀ (i : Instr) (s t : State) (o : Option Byte), (∀ x kk, i ≠ .rndVxKk x kk) → exec i s = .next t →
    exec i { s with offered := o } = .next { t with offered := o })

/-! ## Index register and memory (43_index_memory.md) -/

/-- LD I,addr (R131): the 12-bit address, zero-extended. -/
def Obligations.LoadIndexAssignsTheAddress : Prop :=
  ∀ (nnn : Addr12) (s : State),
    ∃ t, exec (.ldIAddr nnn) s = .next t ∧ t.index.toNat = nnn.toNat ∧ CompletesAt (s.pc + 2) t ∧ TicksFrom s.dt s.st t ∧
      KeepsRegs s t ∧ KeepsStack s t ∧ KeepsMem s t ∧ KeepsFb s t ∧ KeepsHost s t ∧ KeepsDraws s t

/-- LD F,Vx (R133): five times the whole byte (the spec's decision D26). -/
def Obligations.LoadFontAddressIsFiveTimes : Prop :=
  ∀ (x : Reg) (s : State),
    ∃ t, exec (.ldFVx x) s = .next t ∧ t.index.toNat = (s.getV x).toNat * 5 ∧ CompletesAt (s.pc + 2) t ∧ TicksFrom s.dt s.st t ∧
      KeepsRegs s t ∧ KeepsStack s t ∧ KeepsMem s t ∧ KeepsFb s t ∧ KeepsHost s t ∧ KeepsDraws s t

/-- ADD I,Vx (R132): the sum where it fits 16 bits, VF untouched; IndexOverflow with the whole sum where it does not (the spec's
decision D11; the frozen rest D13). -/
def Obligations.AddToIndexOrOverflow : Prop :=
  ∀ (x : Reg) (s : State),
    (s.index.toNat + (s.getV x).toNat ≤ 0xFFFF →
      ∃ t, exec (.addIVx x) s = .next t ∧ t.index.toNat = s.index.toNat + (s.getV x).toNat ∧ CompletesAt (s.pc + 2) t ∧
        TicksFrom s.dt s.st t ∧ KeepsRegs s t ∧ KeepsStack s t ∧ KeepsMem s t ∧ KeepsFb s t ∧ KeepsHost s t ∧ KeepsDraws s t) ∧
    (0xFFFF < s.index.toNat + (s.getV x).toNat →
      exec (.addIVx x) s = .next (raised (.boundsViolation .indexOverflow) (some (encode (.addIVx x)))
        (s.index.toNat + (s.getV x).toNat) s))

/-- LD B,Vx (R136, the spec's decision D22): the decimal digits of V[x] at I, I+1, I+2, and no other byte. -/
def Obligations.StoreDecimalDigits : Prop :=
  ∀ (x : Reg) (s : State), s.index.toNat + 2 ≤ 0xFFF →
    ∃ t, exec (.ldBVx x) s = .next t ∧
      (t.mem.read s.index.toNat).toNat = (s.getV x).toNat / 100 ∧
      (t.mem.read (s.index.toNat + 1)).toNat = (s.getV x).toNat / 10 % 10 ∧
      (t.mem.read (s.index.toNat + 2)).toNat = (s.getV x).toNat % 10 ∧
      KeepsMemOutside s.index.toNat 3 s t ∧ CompletesAt (s.pc + 2) t ∧ TicksFrom s.dt s.st t ∧
      KeepsRegs s t ∧ KeepsIndex s t ∧ KeepsStack s t ∧ KeepsFb s t ∧ KeepsHost s t ∧ KeepsDraws s t

/-- LD [I],Vx (R134): V[0] to V[x] at ascending addresses from I, no other byte; I unchanged (the spec's decision D10). -/
def Obligations.StoreRegistersAscending : Prop :=
  ∀ (x : Reg) (s : State), s.index.toNat + x.toNat ≤ 0xFFF →
    ∃ t, exec (.ldMemVx x) s = .next t ∧
      (∀ r : Reg, r.toNat ≤ x.toNat → t.mem.read (s.index.toNat + r.toNat) = s.getV r) ∧
      KeepsMemOutside s.index.toNat (x.toNat + 1) s t ∧ CompletesAt (s.pc + 2) t ∧ TicksFrom s.dt s.st t ∧
      KeepsRegs s t ∧ KeepsIndex s t ∧ KeepsStack s t ∧ KeepsFb s t ∧ KeepsHost s t ∧ KeepsDraws s t

/-- LD Vx,[I] (R135): the bytes from I into V[0] to V[x], the registers above kept; I unchanged (the spec's decision D10). -/
def Obligations.LoadRegistersAscending : Prop :=
  ∀ (x : Reg) (s : State), s.index.toNat + x.toNat ≤ 0xFFF →
    ∃ t, exec (.ldVxMem x) s = .next t ∧
      (∀ r : Reg, t.getV r = if r.toNat ≤ x.toNat then s.mem.read (s.index.toNat + r.toNat) else s.getV r) ∧
      WritesRegsOnly s t ∧ KeepsDraws s t

/-- A memory instruction whose highest address is above 0xFFF raises MemAddress with the lowest offending address and writes nothing
(R60, R164, R134 to R136, R142; the spec's decisions D13, D28). -/
def Obligations.BadAddressesFaultBeforeAnyWrite : Prop :=
  ∀ (x y : Reg) (n : Nibble) (s : State),
    (0xFFF < s.index.toNat + 2 → exec (.ldBVx x) s =
      .next (raised (.boundsViolation .memAddress) (some (encode (.ldBVx x))) (max s.index.toNat 0x1000) s)) ∧
    (0xFFF < s.index.toNat + x.toNat → exec (.ldMemVx x) s =
      .next (raised (.boundsViolation .memAddress) (some (encode (.ldMemVx x))) (max s.index.toNat 0x1000) s)) ∧
    (0xFFF < s.index.toNat + x.toNat → exec (.ldVxMem x) s =
      .next (raised (.boundsViolation .memAddress) (some (encode (.ldVxMem x))) (max s.index.toNat 0x1000) s)) ∧
    (n ≠ 0 → 0xFFF < s.index.toNat + (n.toNat - 1) → exec (.drwVxVyN x y n) s =
      .next (raised (.boundsViolation .memAddress) (some (encode (.drwVxVyN x y n))) (max s.index.toNat 0x1000) s))

/-- Storing V[0] to V[x] and loading them back at the same I gives the registers again, whatever was in them in between (R134, R135,
the source's round trip). -/
def Obligations.StoreThenLoadGivesTheRegistersBack : Prop :=
  ∀ (x : Reg) (s t u : State), s.index.toNat + x.toNat ≤ 0xFFF → exec (.ldMemVx x) s = .next t →
    u.index = t.index → KeepsMem t u →
    ∃ w, exec (.ldVxMem x) u = .next w ∧ ∀ r : Reg, r.toNat ≤ x.toNat → w.getV r = s.getV r

/-- Code a store writes is what the next fetch reads, with no barrier (R66): after LD [I],Vx or LD B,Vx the next step fetches a word
each of whose two bytes is the one just stored at its address, where one was, and the byte of before where none was. With I = PC + 2
that is V[0] and V[1] (x at least 1), or the hundreds and tens of V[x] (the spec's decision D22). -/
def Obligations.StoreIsSeenByTheNextFetch : Prop :=
  ∀ (x : Reg) (s t : State), s.pc.toNat ≤ 4092 →
    (s.index.toNat + x.toNat ≤ 0xFFF → exec (.ldMemVx x) s = .next t →
      ∃ w, fetch t = .ok w ∧
        w.toNat = (overlaid s.index.toNat (regRow x s) s (s.pc.toNat + 2)).toNat * 256 +
          (overlaid s.index.toNat (regRow x s) s (s.pc.toNat + 3)).toNat) ∧
    (s.index.toNat + 2 ≤ 0xFFF → exec (.ldBVx x) s = .next t →
      ∃ w, fetch t = .ok w ∧
        w.toNat = (overlaid s.index.toNat (digitRow (s.getV x).toNat) s (s.pc.toNat + 2)).toNat * 256 +
          (overlaid s.index.toNat (digitRow (s.getV x).toNat) s (s.pc.toNat + 3)).toNat)

/-! ## Display (44_display.md) -/

/-- CLS (R141): every pixel 0, VF not written, no refresh (the spec's decision D20). -/
def Obligations.ClsClearsEveryPixel : Prop :=
  ∀ s : State,
    ∃ t, exec .cls s = .next t ∧ (∀ r c, t.fb.get r c = false) ∧ CompletesAt (s.pc + 2) t ∧ TicksFrom s.dt s.st t ∧
      KeepsRegs s t ∧ KeepsIndex s t ∧ KeepsStack s t ∧ KeepsMem s t ∧ KeepsHost s t ∧ KeepsDraws s t

/-- The draw engine's loops (R143), for the at most 15 rows a DRW has: exactly the pixels that are targets of sprite bits equal to 1
flip, each wrapped on its own. -/
def Obligations.DrawFlipsExactlyTheSpriteBits : Prop :=
  ∀ (x0 y0 : Nat) (rows : List Byte) (fb : Framebuffer), rows.length ≤ 15 → Flips x0 y0 rows fb (draw x0 y0 rows fb).fb

/-- Collision is one boolean, that some sprite bit equal to 1 met a pixel that was 1 before the draw (R144); a pixel was toggled
exactly when some sprite bit is 1 (R145, the spec's decision D19). -/
def Obligations.DrawReportsCollisionAndToggling : Prop :=
  ∀ (x0 y0 : Nat) (rows : List Byte) (fb : Framebuffer), rows.length ≤ 15 →
    ((draw x0 y0 rows fb).collision = true ↔ Collides x0 y0 rows fb) ∧
    ((draw x0 y0 rows fb).toggled = true ↔ SomeBitSet rows)

/-- DRW Vx,Vy,n (R142): the n rows are MEM[I ..] (the spec's decision D23), the coordinates the registers as they were; VF = collision,
`refresh` iff a sprite bit is 1; I and memory unchanged. With n = 0 it cannot fault, whatever I holds. -/
def Obligations.DrwDrawsTheSpriteAtI : Prop :=
  ∀ (x y : Reg) (n : Nibble) (s : State), n = 0 ∨ s.index.toNat + (n.toNat - 1) ≤ 0xFFF →
    ∃ t, exec (.drwVxVyN x y n) s = .next t ∧
      Flips (s.getV x).toNat (s.getV y).toNat (memRows s s.index.toNat n.toNat) s.fb t.fb ∧
      (Collides (s.getV x).toNat (s.getV y).toNat (memRows s s.index.toNat n.toNat) s.fb → t.getV VF = 1) ∧
      (¬ Collides (s.getV x).toNat (s.getV y).toNat (memRows s s.index.toNat n.toNat) s.fb → t.getV VF = 0) ∧
      (t.out.refresh = true ↔ SomeBitSet (memRows s s.index.toNat n.toNat)) ∧
      (∀ r, r ≠ VF → t.getV r = s.getV r) ∧ t.pc = s.pc + 2 ∧ t.out.outcome = .done ∧ TicksFrom s.dt s.st t ∧
      KeepsIndex s t ∧ KeepsStack s t ∧ KeepsMem s t ∧ KeepsHost s t ∧ KeepsDraws s t

/-- Drawing the same rows at the same coordinates twice restores the framebuffer (R146 (a)), and the second draw collides exactly when
some covered pixel was 0 before the first: the model's choice (DESIGN CHOICE, log 16). R146 (a) says that the second draw collides if
any bit is set, for any framebuffer; by R143 and R144, which the model follows, that fails where every covered pixel was 1 before. On a
clear framebuffer, the source's own case, the first draw does not collide and the second does exactly when some bit is set. -/
def Obligations.DrawingTwiceRestoresTheFramebuffer : Prop :=
  ∀ (x0 y0 : Nat) (rows : List Byte) (fb : Framebuffer), rows.length ≤ 15 →
    (draw x0 y0 rows (draw x0 y0 rows fb).fb).fb = fb ∧
    ((draw x0 y0 rows (draw x0 y0 rows fb).fb).collision = true ↔ ∃ r c, Covered x0 y0 rows r c ∧ fb.get r c = false) ∧
    (fb = Framebuffer.clear → (draw x0 y0 rows fb).collision = false ∧
      ((draw x0 y0 rows (draw x0 y0 rows fb).fb).collision = true ↔ SomeBitSet rows))

/-! ## Keypad and timers (45_keypad_timers.md) -/

/-- SKP (R151) and SKNP (R152): Skip by the level of the key the whole byte names; a byte above 15 raises KeyIndex (the spec's decision
D12; the frozen rest D13). -/
def Obligations.KeySkipsTestTheKey : Prop :=
  ∀ (x : Reg) (s : State),
    (∀ k : Fin 16, (s.getV x).toNat = k.val →
      (∃ t, exec (.skpVx x) s = .next t ∧ WritesPcOnly (if s.key k = true then s.pc + 4 else s.pc + 2) s t) ∧
      (∃ t, exec (.sknpVx x) s = .next t ∧ WritesPcOnly (if s.key k = false then s.pc + 4 else s.pc + 2) s t)) ∧
    (15 < (s.getV x).toNat →
      exec (.skpVx x) s = .next (raised (.boundsViolation .keyIndex) (some (encode (.skpVx x))) (s.getV x).toNat s) ∧
      exec (.sknpVx x) s = .next (raised (.boundsViolation .keyIndex) (some (encode (.sknpVx x))) (s.getV x).toNat s))

/-- LD Vx,K (R154): with some key pressed, the lowest pressed key's code is stored and the step completes; with none the step is a
Hold, which changes nothing but the model's own `out` (log 3). -/
def Obligations.KeyWaitStoresTheLowestKeyOrHolds : Prop :=
  ∀ (x : Reg) (s : State),
    (∀ k : Fin 16, s.key k = true → (∀ j : Fin 16, j < k → s.key j = false) →
      ∃ t, exec (.ldVxK x) s = .next t ∧ (t.getV x).toNat = k.val ∧ (∀ r, r ≠ x → t.getV r = s.getV r) ∧
        WritesRegsOnly s t ∧ KeepsDraws s t) ∧
    ((∀ k : Fin 16, s.key k = false) → exec (.ldVxK x) s = .next { s with out := ⟨.hold, false, false⟩ })

/-- LD DT,Vx (R155) and LD ST,Vx (R156): the timer is V[x], and the tick of the same step follows, which the spec derives in both rules
from R95. -/
def Obligations.SetTimersThenTick : Prop :=
  ∀ (x : Reg) (s : State),
    (∃ t, exec (.ldDtVx x) s = .next t ∧ TicksFrom (s.getV x) s.st t ∧ CompletesAt (s.pc + 2) t ∧
      KeepsRegs s t ∧ KeepsIndex s t ∧ KeepsStack s t ∧ KeepsMem s t ∧ KeepsFb s t ∧ KeepsHost s t ∧ KeepsDraws s t) ∧
    (∃ t, exec (.ldStVx x) s = .next t ∧ TicksFrom s.dt (s.getV x) t ∧ CompletesAt (s.pc + 2) t ∧
      KeepsRegs s t ∧ KeepsIndex s t ∧ KeepsStack s t ∧ KeepsMem s t ∧ KeepsFb s t ∧ KeepsHost s t ∧ KeepsDraws s t)

/-! ## Reset and the host (70_reset_and_hazards.md) -/

/-- The reset values of R42 (the spec's decisions D5 and D6), all 80 font bytes of R55 (D4) among them at the places of R52. -/
def Obligations.ResetValuesAreTheTable : Prop :=
  (∀ r, State.reset.getV r = 0) ∧ State.reset.index = 0 ∧ State.reset.pc = 0x200 ∧ State.reset.sp.val = 0 ∧
  (∀ k : Fin 16, State.reset.stack[k] = 0) ∧ State.reset.dt = 0 ∧ State.reset.st = 0 ∧
  (∀ r c, State.reset.fb.get r c = false) ∧ (∀ k, State.reset.key k = false) ∧ State.reset.fault = none ∧
  memRows State.reset 0 80 =
    [0xF0, 0x90, 0x90, 0x90, 0xF0] ++ [0x20, 0x60, 0x20, 0x20, 0x70] ++ [0xF0, 0x10, 0xF0, 0x80, 0xF0] ++ [0xF0, 0x10, 0xF0, 0x10, 0xF0] ++
    [0x90, 0x90, 0xF0, 0x10, 0x10] ++ [0xF0, 0x80, 0xF0, 0x10, 0xF0] ++ [0xF0, 0x80, 0xF0, 0x90, 0xF0] ++ [0xF0, 0x10, 0x20, 0x40, 0x40] ++
    [0xF0, 0x90, 0xF0, 0x90, 0xF0] ++ [0xF0, 0x90, 0xF0, 0x10, 0xF0] ++ [0xF0, 0x90, 0xF0, 0x90, 0x90] ++ [0xE0, 0x90, 0xE0, 0x90, 0xE0] ++
    [0xF0, 0x80, 0x80, 0x80, 0xF0] ++ [0xE0, 0x90, 0x90, 0x90, 0xE0] ++ [0xF0, 0x80, 0xF0, 0x80, 0xF0] ++ [0xF0, 0x80, 0xF0, 0x80, 0x80] ∧
  (∀ a, 0x50 ≤ a → State.reset.mem.read a = 0)

/-- Reset(ROM) (R53, R190, R195, R196), of any state: an image of at most 3584 bytes stands verbatim from 0x200 on, every other byte and
all other state as after reset, but that the model's own count of draws goes on (log 2); a longer one yields no machine but the record
of R173's last row (the spec's decision D24). -/
def Obligations.ResetLoadsTheImageOrFails : Prop :=
  ∀ (rom : List Byte) (s : State),
    (rom.length ≤ 3584 →
      ∃ t, resetWith rom s = .next t ∧ t = { State.reset with mem := t.mem, draws := s.draws } ∧
        (∀ k (h : k < rom.length), t.mem.read (0x200 + k) = rom[k]) ∧
        (∀ a, a < 0x200 ∨ 0x200 + rom.length ≤ a → t.mem.read a = State.reset.mem.read a)) ∧
    (3584 < rom.length →
      resetWith rom s = .fault (.resourceLoadFailure ⟨.resourceLoadFailure, none, none, rom.length⟩))

/-- KeyUpdate (R202): all 16 key states are replaced at once, on a halted machine too, and nothing else changes. -/
def Obligations.KeyUpdateSetsOnlyTheKeys : Prop :=
  ∀ (keys : Vector Bool 16) (s : State),
    ∃ t, applyOp (.keyUpdate keys) s = .next t ∧ (∀ k : Fin 16, t.key k = keys[k]) ∧ t = { s with keys := t.keys }
end

