-- ==== Sys2Proof/Laws/State.lean ====
section
/-! SUPPORT. One lemma per field per update, so that no later proof unfolds a record update. -/
namespace Sys2Proof.Machine

@[simp] theorem State.setV_v (s : State) (x : Reg) (b : Byte) : (s.setV x b).v = s.v.set x.toNat b x.isLt := rfl
@[simp] theorem State.setV_index (s : State) (x : Reg) (b : Byte) : (s.setV x b).index = s.index := rfl
@[simp] theorem State.setV_pc (s : State) (x : Reg) (b : Byte) : (s.setV x b).pc = s.pc := rfl
@[simp] theorem State.setV_sp (s : State) (x : Reg) (b : Byte) : (s.setV x b).sp = s.sp := rfl
@[simp] theorem State.setV_stack (s : State) (x : Reg) (b : Byte) : (s.setV x b).stack = s.stack := rfl
@[simp] theorem State.setV_dt (s : State) (x : Reg) (b : Byte) : (s.setV x b).dt = s.dt := rfl
@[simp] theorem State.setV_st (s : State) (x : Reg) (b : Byte) : (s.setV x b).st = s.st := rfl
@[simp] theorem State.setV_mem (s : State) (x : Reg) (b : Byte) : (s.setV x b).mem = s.mem := rfl
@[simp] theorem State.setV_fb (s : State) (x : Reg) (b : Byte) : (s.setV x b).fb = s.fb := rfl
@[simp] theorem State.setV_keys (s : State) (x : Reg) (b : Byte) : (s.setV x b).keys = s.keys := rfl
@[simp] theorem State.setV_fault (s : State) (x : Reg) (b : Byte) : (s.setV x b).fault = s.fault := rfl
@[simp] theorem State.setV_draws (s : State) (x : Reg) (b : Byte) : (s.setV x b).draws = s.draws := rfl
@[simp] theorem State.setV_offered (s : State) (x : Reg) (b : Byte) : (s.setV x b).offered = s.offered := rfl
@[simp] theorem State.setV_out (s : State) (x : Reg) (b : Byte) : (s.setV x b).out = s.out := rfl

@[simp] theorem State.setI_v (s : State) (a : Word) : (s.setI a).v = s.v := rfl
@[simp] theorem State.setI_index (s : State) (a : Word) : (s.setI a).index = a := rfl
@[simp] theorem State.setI_pc (s : State) (a : Word) : (s.setI a).pc = s.pc := rfl
@[simp] theorem State.setI_sp (s : State) (a : Word) : (s.setI a).sp = s.sp := rfl
@[simp] theorem State.setI_stack (s : State) (a : Word) : (s.setI a).stack = s.stack := rfl
@[simp] theorem State.setI_dt (s : State) (a : Word) : (s.setI a).dt = s.dt := rfl
@[simp] theorem State.setI_st (s : State) (a : Word) : (s.setI a).st = s.st := rfl
@[simp] theorem State.setI_mem (s : State) (a : Word) : (s.setI a).mem = s.mem := rfl
@[simp] theorem State.setI_fb (s : State) (a : Word) : (s.setI a).fb = s.fb := rfl
@[simp] theorem State.setI_keys (s : State) (a : Word) : (s.setI a).keys = s.keys := rfl
@[simp] theorem State.setI_fault (s : State) (a : Word) : (s.setI a).fault = s.fault := rfl
@[simp] theorem State.setI_draws (s : State) (a : Word) : (s.setI a).draws = s.draws := rfl
@[simp] theorem State.setI_offered (s : State) (a : Word) : (s.setI a).offered = s.offered := rfl
@[simp] theorem State.setI_out (s : State) (a : Word) : (s.setI a).out = s.out := rfl

@[simp] theorem raise_v (c : Cause) (w : Option Word) (s : State) : (raise c w s).v = s.v := rfl
@[simp] theorem raise_index (c : Cause) (w : Option Word) (s : State) : (raise c w s).index = s.index := rfl
@[simp] theorem raise_pc (c : Cause) (w : Option Word) (s : State) : (raise c w s).pc = s.pc := rfl
@[simp] theorem raise_sp (c : Cause) (w : Option Word) (s : State) : (raise c w s).sp = s.sp := rfl
@[simp] theorem raise_stack (c : Cause) (w : Option Word) (s : State) : (raise c w s).stack = s.stack := rfl
@[simp] theorem raise_dt (c : Cause) (w : Option Word) (s : State) : (raise c w s).dt = s.dt := rfl
@[simp] theorem raise_st (c : Cause) (w : Option Word) (s : State) : (raise c w s).st = s.st := rfl
@[simp] theorem raise_mem (c : Cause) (w : Option Word) (s : State) : (raise c w s).mem = s.mem := rfl
@[simp] theorem raise_fb (c : Cause) (w : Option Word) (s : State) : (raise c w s).fb = s.fb := rfl
@[simp] theorem raise_keys (c : Cause) (w : Option Word) (s : State) : (raise c w s).keys = s.keys := rfl
@[simp] theorem raise_fault (c : Cause) (w : Option Word) (s : State) : (raise c w s).fault = some ⟨c.kind, some s.pc, w, c.value⟩ := rfl
@[simp] theorem raise_draws (c : Cause) (w : Option Word) (s : State) : (raise c w s).draws = s.draws := rfl
@[simp] theorem raise_offered (c : Cause) (w : Option Word) (s : State) : (raise c w s).offered = s.offered := rfl
@[simp] theorem raise_out (c : Cause) (w : Option Word) (s : State) : (raise c w s).out = ⟨.fault, false, false⟩ := rfl

@[simp] theorem halt_v (s : State) : (halt s).v = s.v := rfl
@[simp] theorem halt_index (s : State) : (halt s).index = s.index := rfl
@[simp] theorem halt_pc (s : State) : (halt s).pc = s.pc := rfl
@[simp] theorem halt_sp (s : State) : (halt s).sp = s.sp := rfl
@[simp] theorem halt_stack (s : State) : (halt s).stack = s.stack := rfl
@[simp] theorem halt_dt (s : State) : (halt s).dt = s.dt := rfl
@[simp] theorem halt_st (s : State) : (halt s).st = s.st := rfl
@[simp] theorem halt_mem (s : State) : (halt s).mem = s.mem := rfl
@[simp] theorem halt_fb (s : State) : (halt s).fb = s.fb := rfl
@[simp] theorem halt_keys (s : State) : (halt s).keys = s.keys := rfl
@[simp] theorem halt_fault (s : State) : (halt s).fault = s.fault := rfl
@[simp] theorem halt_draws (s : State) : (halt s).draws = s.draws := rfl
@[simp] theorem halt_offered (s : State) : (halt s).offered = s.offered := rfl
@[simp] theorem halt_out (s : State) : (halt s).out = ⟨.halted, false, false⟩ := rfl

@[simp] theorem hold_v (s : State) : (hold s).v = s.v := rfl
@[simp] theorem hold_index (s : State) : (hold s).index = s.index := rfl
@[simp] theorem hold_pc (s : State) : (hold s).pc = s.pc := rfl
@[simp] theorem hold_sp (s : State) : (hold s).sp = s.sp := rfl
@[simp] theorem hold_stack (s : State) : (hold s).stack = s.stack := rfl
@[simp] theorem hold_dt (s : State) : (hold s).dt = s.dt := rfl
@[simp] theorem hold_st (s : State) : (hold s).st = s.st := rfl
@[simp] theorem hold_mem (s : State) : (hold s).mem = s.mem := rfl
@[simp] theorem hold_fb (s : State) : (hold s).fb = s.fb := rfl
@[simp] theorem hold_keys (s : State) : (hold s).keys = s.keys := rfl
@[simp] theorem hold_fault (s : State) : (hold s).fault = s.fault := rfl
@[simp] theorem hold_draws (s : State) : (hold s).draws = s.draws := rfl
@[simp] theorem hold_offered (s : State) : (hold s).offered = s.offered := rfl
@[simp] theorem hold_out (s : State) : (hold s).out = ⟨.hold, false, false⟩ := rfl

@[simp] theorem timerTick_v (s : State) : (timerTick s).v = s.v := rfl
@[simp] theorem timerTick_index (s : State) : (timerTick s).index = s.index := rfl
@[simp] theorem timerTick_pc (s : State) : (timerTick s).pc = s.pc := rfl
@[simp] theorem timerTick_sp (s : State) : (timerTick s).sp = s.sp := rfl
@[simp] theorem timerTick_stack (s : State) : (timerTick s).stack = s.stack := rfl
@[simp] theorem timerTick_dt (s : State) : (timerTick s).dt = tickDown s.dt := rfl
@[simp] theorem timerTick_st (s : State) : (timerTick s).st = tickDown s.st := rfl
@[simp] theorem timerTick_mem (s : State) : (timerTick s).mem = s.mem := rfl
@[simp] theorem timerTick_fb (s : State) : (timerTick s).fb = s.fb := rfl
@[simp] theorem timerTick_keys (s : State) : (timerTick s).keys = s.keys := rfl
@[simp] theorem timerTick_fault (s : State) : (timerTick s).fault = s.fault := rfl
@[simp] theorem timerTick_draws (s : State) : (timerTick s).draws = s.draws := rfl
@[simp] theorem timerTick_offered (s : State) : (timerTick s).offered = s.offered := rfl
@[simp] theorem timerTick_out (s : State) : (timerTick s).out = s.out := rfl

@[simp] theorem advance_v (d : Directive) (s : State) : (advance d s).v = s.v := rfl
@[simp] theorem advance_index (d : Directive) (s : State) : (advance d s).index = s.index := rfl
@[simp] theorem advance_pc (d : Directive) (s : State) : (advance d s).pc = d.target s.pc := rfl
@[simp] theorem advance_sp (d : Directive) (s : State) : (advance d s).sp = s.sp := rfl
@[simp] theorem advance_stack (d : Directive) (s : State) : (advance d s).stack = s.stack := rfl
@[simp] theorem advance_dt (d : Directive) (s : State) : (advance d s).dt = s.dt := rfl
@[simp] theorem advance_st (d : Directive) (s : State) : (advance d s).st = s.st := rfl
@[simp] theorem advance_mem (d : Directive) (s : State) : (advance d s).mem = s.mem := rfl
@[simp] theorem advance_fb (d : Directive) (s : State) : (advance d s).fb = s.fb := rfl
@[simp] theorem advance_keys (d : Directive) (s : State) : (advance d s).keys = s.keys := rfl
@[simp] theorem advance_fault (d : Directive) (s : State) : (advance d s).fault = s.fault := rfl
@[simp] theorem advance_draws (d : Directive) (s : State) : (advance d s).draws = s.draws := rfl
@[simp] theorem advance_offered (d : Directive) (s : State) : (advance d s).offered = s.offered := rfl
@[simp] theorem advance_out (d : Directive) (s : State) : (advance d s).out = s.out := rfl

@[simp] theorem finish_v (e : Effect) : (finish e).v = e.state.v := rfl
@[simp] theorem finish_index (e : Effect) : (finish e).index = e.state.index := rfl
@[simp] theorem finish_pc (e : Effect) : (finish e).pc = e.directive.target e.state.pc := rfl
@[simp] theorem finish_sp (e : Effect) : (finish e).sp = e.state.sp := rfl
@[simp] theorem finish_stack (e : Effect) : (finish e).stack = e.state.stack := rfl
@[simp] theorem finish_dt (e : Effect) : (finish e).dt = tickDown e.state.dt := rfl
@[simp] theorem finish_st (e : Effect) : (finish e).st = tickDown e.state.st := rfl
@[simp] theorem finish_mem (e : Effect) : (finish e).mem = e.state.mem := rfl
@[simp] theorem finish_fb (e : Effect) : (finish e).fb = e.state.fb := rfl
@[simp] theorem finish_keys (e : Effect) : (finish e).keys = e.state.keys := rfl
@[simp] theorem finish_fault (e : Effect) : (finish e).fault = e.state.fault := rfl
@[simp] theorem finish_draws (e : Effect) : (finish e).draws = e.state.draws := rfl
@[simp] theorem finish_offered (e : Effect) : (finish e).offered = e.state.offered := rfl
@[simp] theorem finish_out (e : Effect) : (finish e).out = ⟨.done, beeps e.state, e.refresh⟩ := rfl

@[simp] theorem keyUpdate_v (k : Vector Bool 16) (s : State) : (keyUpdate k s).v = s.v := rfl
@[simp] theorem keyUpdate_index (k : Vector Bool 16) (s : State) : (keyUpdate k s).index = s.index := rfl
@[simp] theorem keyUpdate_pc (k : Vector Bool 16) (s : State) : (keyUpdate k s).pc = s.pc := rfl
@[simp] theorem keyUpdate_sp (k : Vector Bool 16) (s : State) : (keyUpdate k s).sp = s.sp := rfl
@[simp] theorem keyUpdate_stack (k : Vector Bool 16) (s : State) : (keyUpdate k s).stack = s.stack := rfl
@[simp] theorem keyUpdate_dt (k : Vector Bool 16) (s : State) : (keyUpdate k s).dt = s.dt := rfl
@[simp] theorem keyUpdate_st (k : Vector Bool 16) (s : State) : (keyUpdate k s).st = s.st := rfl
@[simp] theorem keyUpdate_mem (k : Vector Bool 16) (s : State) : (keyUpdate k s).mem = s.mem := rfl
@[simp] theorem keyUpdate_fb (k : Vector Bool 16) (s : State) : (keyUpdate k s).fb = s.fb := rfl
@[simp] theorem keyUpdate_keys (k : Vector Bool 16) (s : State) : (keyUpdate k s).keys = k := rfl
@[simp] theorem keyUpdate_fault (k : Vector Bool 16) (s : State) : (keyUpdate k s).fault = s.fault := rfl
@[simp] theorem keyUpdate_draws (k : Vector Bool 16) (s : State) : (keyUpdate k s).draws = s.draws := rfl
@[simp] theorem keyUpdate_offered (k : Vector Bool 16) (s : State) : (keyUpdate k s).offered = s.offered := rfl
@[simp] theorem keyUpdate_out (k : Vector Bool 16) (s : State) : (keyUpdate k s).out = s.out := rfl

@[simp] theorem State.withFetchWord_v (s : State) (nbits w : Nat) : (s.withFetchWord nbits w).v = s.v := rfl
@[simp] theorem State.withFetchWord_index (s : State) (nbits w : Nat) : (s.withFetchWord nbits w).index = s.index := rfl
@[simp] theorem State.withFetchWord_pc (s : State) (nbits w : Nat) : (s.withFetchWord nbits w).pc = s.pc := rfl
@[simp] theorem State.withFetchWord_sp (s : State) (nbits w : Nat) : (s.withFetchWord nbits w).sp = s.sp := rfl
@[simp] theorem State.withFetchWord_stack (s : State) (nbits w : Nat) : (s.withFetchWord nbits w).stack = s.stack := rfl
@[simp] theorem State.withFetchWord_dt (s : State) (nbits w : Nat) : (s.withFetchWord nbits w).dt = s.dt := rfl
@[simp] theorem State.withFetchWord_st (s : State) (nbits w : Nat) : (s.withFetchWord nbits w).st = s.st := rfl
@[simp] theorem State.withFetchWord_mem (s : State) (nbits w : Nat) : (s.withFetchWord nbits w).mem =
    if s.pc.toNat ≤ 4094 then placeWord s.mem s.pc.toNat (BitVec.ofNat 16 (w % 2 ^ min nbits 16)) else s.mem := rfl
@[simp] theorem State.withFetchWord_fb (s : State) (nbits w : Nat) : (s.withFetchWord nbits w).fb = s.fb := rfl
@[simp] theorem State.withFetchWord_keys (s : State) (nbits w : Nat) : (s.withFetchWord nbits w).keys = s.keys := rfl
@[simp] theorem State.withFetchWord_fault (s : State) (nbits w : Nat) : (s.withFetchWord nbits w).fault = s.fault := rfl
@[simp] theorem State.withFetchWord_draws (s : State) (nbits w : Nat) : (s.withFetchWord nbits w).draws = s.draws := rfl
@[simp] theorem State.withFetchWord_offered (s : State) (nbits w : Nat) : (s.withFetchWord nbits w).offered = s.offered := rfl
@[simp] theorem State.withFetchWord_out (s : State) (nbits w : Nat) : (s.withFetchWord nbits w).out = s.out := rfl

end Sys2Proof.Machine
end

