-- ==== Sys2Proof/Laws/Memory.lean ====
section
/-! SUPPORT. Memory: reading after writing, and that every operation keeps the canonical form. -/
namespace Sys2Proof.Machine

@[simp] theorem Memory.read_nil (a : Nat) : Memory.read [] a = Memory.initial a := rfl

/-- Outside the font an unwritten byte reads as 0. -/
theorem Memory.initial_of_ge {a : Nat} (h : 80 ≤ a) : Memory.initial a = 0 := by
  have hl : fontBytes.length = 80 := rfl
  exact List.getD_eq_default _ _ (by omega)

theorem Memory.read_erase_same (m : Memory) (a : Nat) : (m.erase a).read a = Memory.initial a := by
  induction m with
  | nil => rfl
  | cons c rest ih =>
    obtain ⟨b, u⟩ := c
    by_cases h : b = a
    · simpa [Memory.erase, List.filter_cons, h] using ih
    · simpa [Memory.erase, List.filter_cons, h, Memory.read, Ne.symm h] using ih

theorem Memory.read_erase_other (m : Memory) {a b : Nat} (hb : b ≠ a) : (m.erase a).read b = m.read b := by
  induction m with
  | nil => rfl
  | cons c rest ih =>
    obtain ⟨k, u⟩ := c
    by_cases h : k = a
    · have : b ≠ k := by omega
      simpa [Memory.erase, List.filter_cons, h, Memory.read, hb] using ih
    · have ih' : Memory.read (List.filter (fun c => c.1 != a) rest) b = Memory.read rest b := ih
      simp [Memory.erase, h, Memory.read, ih']

theorem Memory.read_insert_other (m : Memory) {a b : Nat} (v : Byte) (hb : b ≠ a) : (m.insert a v).read b = m.read b := by
  induction m with
  | nil => simp [Memory.insert, Memory.read, hb]
  | cons c rest ih =>
    obtain ⟨k, u⟩ := c
    by_cases h : a < k <;> simp [Memory.insert, h, Memory.read, hb, ih]

theorem Memory.read_insert_same (m : Memory) (a : Nat) (v : Byte) (h : ∀ c ∈ m, c.1 ≠ a) : (m.insert a v).read a = v := by
  induction m with
  | nil => simp [Memory.insert, Memory.read]
  | cons c rest ih =>
    obtain ⟨k, u⟩ := c
    have hk : a ≠ k := fun e => h (k, u) (by simp) e.symm
    by_cases hlt : a < k
    · simp [Memory.insert, hlt, Memory.read]
    · simpa [Memory.insert, hlt, Memory.read, hk] using ih fun c hc => h c (by simp [hc])

/-- A read after a write to the same place gives the value written, and a write leaves every other place alone (R63). -/
theorem Memory.read_write (m : Memory) (a b : Nat) (v : Byte) : (m.write a v).read b = if b = a then v else m.read b := by
  unfold Memory.write
  by_cases hb : b = a
  · subst hb
    split
    · rename_i h; simp [Memory.read_erase_same, h]
    · rw [if_pos rfl]
      exact Memory.read_insert_same _ _ _ (by simp [Memory.erase])
  · rw [if_neg hb]
    split
    · exact Memory.read_erase_other m hb
    · rw [Memory.read_insert_other _ _ hb, Memory.read_erase_other m hb]

/-- The bytes a sequence of writes leaves: the sequence from `a` on, and every other place as before. -/
theorem Memory.read_writeAll (bs : List Byte) (m : Memory) (a b : Nat) :
    (m.writeAll a bs).read b = if a ≤ b ∧ b < a + bs.length then bs.getD (b - a) 0 else m.read b := by
  induction bs generalizing m a with
  | nil =>
    rw [if_neg (by simp only [List.length_nil]; omega)]
    rfl
  | cons x rest ih =>
    rw [Memory.writeAll, ih, Memory.read_write]
    by_cases h1 : b = a
    · subst h1; simp
    · by_cases h2 : a + 1 ≤ b ∧ b < a + 1 + rest.length
      · have h3 : a ≤ b ∧ b < a + (rest.length + 1) := by omega
        have h4 : b - a = (b - (a + 1)) + 1 := by omega
        simp [h2, h3, h4]
      · have h3 : ¬ (a ≤ b ∧ b < a + (rest.length + 1)) := by omega
        rw [if_neg h2, if_neg h1, if_neg (by simpa only [List.length_cons] using h3)]

theorem Memory.wfFrom_mono {m : Memory} {lo hi : Nat} (h : hi ≤ lo) (hm : m.wfFrom lo = true) : m.wfFrom hi = true := by
  cases m with
  | nil => rfl
  | cons c rest =>
    simp only [Memory.wfFrom, Bool.and_eq_true, decide_eq_true_eq] at hm ⊢
    exact ⟨⟨⟨by omega, hm.1.1.2⟩, hm.1.2⟩, hm.2⟩

theorem Memory.wfFrom_erase {m : Memory} {lo : Nat} (a : Nat) (hm : m.wfFrom lo = true) : (m.erase a).wfFrom lo = true := by
  induction m generalizing lo with
  | nil => rfl
  | cons c rest ih =>
    obtain ⟨b, u⟩ := c
    simp only [Memory.wfFrom, Bool.and_eq_true, decide_eq_true_eq] at hm
    have hr := ih hm.2
    by_cases h : b = a
    · have : Memory.erase ((b, u) :: rest) a = Memory.erase rest a := by simp [Memory.erase, h]
      rw [this]
      exact Memory.wfFrom_mono (by omega) hr
    · have : Memory.erase ((b, u) :: rest) a = (b, u) :: Memory.erase rest a := by simp [Memory.erase, h]
      simp only [this, Memory.wfFrom, Bool.and_eq_true, decide_eq_true_eq]
      exact ⟨hm.1, hr⟩

theorem Memory.wfFrom_insert {m : Memory} {lo a : Nat} {v : Byte} (hm : m.wfFrom lo = true) (hlo : lo ≤ a) (ha : a ≤ 0xFFF)
    (hv : v ≠ Memory.initial a) (hn : ∀ c ∈ m, c.1 ≠ a) : (m.insert a v).wfFrom lo = true := by
  induction m generalizing lo with
  | nil => simp [Memory.insert, Memory.wfFrom, hlo, ha, hv]
  | cons c rest ih =>
    obtain ⟨b, u⟩ := c
    have hb : b ≠ a := hn (b, u) (by simp)
    have hm' := hm
    simp only [Memory.wfFrom, Bool.and_eq_true, decide_eq_true_eq] at hm'
    by_cases h : a < b
    · have h1 : a + 1 ≤ b := h
      simp [Memory.insert, h, Memory.wfFrom, hlo, ha, hv, h1, hm'.1.1.2, hm'.2]
      simpa using hm'.1.2
    · have hr := ih hm'.2 (by omega) fun c hc => hn c (by simp [hc])
      simp only [Memory.insert, h, if_false, Memory.wfFrom, Bool.and_eq_true, decide_eq_true_eq]
      exact ⟨hm'.1, hr⟩

/-- A write to an address of the space keeps the canonical form. -/
theorem Memory.wf_write {m : Memory} {a : Nat} {v : Byte} (hm : m.wf = true) (ha : a ≤ 0xFFF) : (m.write a v).wf = true := by
  unfold Memory.write
  split
  · exact Memory.wfFrom_erase a hm
  · rename_i hv
    exact Memory.wfFrom_insert (Memory.wfFrom_erase a hm) (Nat.zero_le a) ha hv (by simp [Memory.erase])

/-- A sequence of writes within the space keeps the canonical form. -/
theorem Memory.wf_writeAll {bs : List Byte} {m : Memory} {a : Nat} (hm : m.wf = true) (ha : a + bs.length ≤ 0x1000) :
    (m.writeAll a bs).wf = true := by
  induction bs generalizing m a with
  | nil => exact hm
  | cons b rest ih =>
    simp only [List.length_cons] at ha
    exact ih (Memory.wf_write hm (by omega)) (by omega)

/-- Reset's memory has the canonical form. -/
theorem Memory.wf_placeWord {m : Memory} {a : Nat} {w : Word} (hm : m.wf = true) (ha : a + 1 ≤ 0xFFF) :
    (placeWord m a w).wf = true :=
  Memory.wf_write (Memory.wf_write hm (by omega)) ha

theorem Memory.wf_reset : State.reset.mem.wf = true := rfl

/-- Everything `storeBytes` can do: within the space it writes the bytes and nothing else (R58, R60). -/
theorem storeBytes_ok {bs : List Byte} {a : Nat} {s : State} (h : a + bs.length ≤ 0x1000) :
    storeBytes a bs s = .ok { s with mem := s.mem.writeAll a bs } := by
  induction bs generalizing a s with
  | nil => rfl
  | cons b rest ih =>
    simp only [List.length_cons] at h
    have ha : a ≤ 0xFFF := by omega
    simp only [storeBytes, memWrite, ha, if_true, Except.bind, bind]
    exact ih (by omega)

/-- Everything `loadBytes` can do: within the space it reads the bytes (R58, R60). -/
theorem loadBytes_ok {n a : Nat} {s : State} (h : n = 0 ∨ a + n ≤ 0x1000) : loadBytes a n s = .ok (memRows s a n) := by
  induction n generalizing a with
  | zero => rfl
  | succ n ih =>
    have ha : a ≤ 0xFFF := by omega
    have hr : (0 :: List.map Nat.succ (List.range n)).map (fun i => s.mem.read (a + i)) =
        s.mem.read a :: (List.range n).map fun i => s.mem.read (a + 1 + i) := by
      simp [List.map_map, Function.comp_def, Nat.succ_eq_add_one, Nat.add_assoc, Nat.add_comm 1]
    rw [loadBytes, memRead, if_pos ha, ih (Or.inr (by omega))]
    simp only [memRows, List.range_succ_eq_map, hr]
    rfl

@[simp] theorem memRows_length (s : State) (a n : Nat) : (memRows s a n).length = n := by simp [memRows]

theorem memRows_getD {s : State} {a n i : Nat} (h : i < n) : (memRows s a n).getD i 0 = s.mem.read (a + i) := by
  simp [memRows, List.getD, h]

/-- The range check: passed exactly when the highest address exists (R60). -/
theorem checkRange_ok {m : Nat} {s : State} (h : s.index.toNat + m ≤ 0xFFF) : checkRange m s = .ok () := by
  rw [checkRange, if_neg (by omega)]

theorem checkRange_error {m : Nat} {s : State} (h : 0xFFF < s.index.toNat + m) :
    checkRange m s = .error (badAddress (max s.index.toNat 0x1000)) := by
  rw [checkRange, if_pos h]

end Sys2Proof.Machine
end

