-- ==== Sys2Proof/Laws/Ops.lean ====
section
/-! SUPPORT. What each shared operation over registers, flags, keys, the stack and the end of a step can do, said once. -/
namespace Sys2Proof.Machine

/-! ## Registers and the flag -/

/-- Writing a register: that register, and no other (R20). -/
@[simp] theorem getV_setV (s : State) (x r : Reg) (b : Byte) : (s.setV x b).getV r = if r = x then b else s.getV r := by
  have hx : x.toNat < 16 := x.isLt
  by_cases h : r = x
  · subst h
    simp [State.getV, State.setV]
  · have hn : x.toNat ≠ r.toNat := fun e => h (BitVec.eq_of_toNat_eq e.symm)
    simp [State.getV, State.setV, h, hn]

/-- A register read depends on the register file only. -/
theorem getV_congr {s t : State} (h : t.v = s.v) (r : Reg) : t.getV r = s.getV r := by simp only [State.getV, h]

/-- The result first, the flag second (R122). -/
theorem getV_setResultFlag (s : State) (x r : Reg) (b : Byte) (c : Bool) :
    (s.setResultFlag x b c).getV r = if r = VF then flagByte c else if r = x then b else s.getV r := by
  simp only [State.setResultFlag, State.setFlag, getV_setV]

/-- A flag is 0 or 1 (R21). -/
theorem flagByte_cases (c : Bool) : flagByte c = 0 ∨ flagByte c = 1 := by cases c <;> simp [flagByte]

/-- Loading registers from a sequence of at most `16 - k` bytes: those registers, and no other (R135). -/
theorem getV_setRegs (bs : List Byte) (k : Nat) (s : State) (h : k + bs.length ≤ 16) (r : Reg) :
    (setRegs k bs s).getV r = if k ≤ r.toNat ∧ r.toNat < k + bs.length then bs.getD (r.toNat - k) 0 else s.getV r := by
  induction bs generalizing k s with
  | nil =>
    rw [if_neg (by simp only [List.length_nil]; omega)]
    rfl
  | cons b rest ih =>
    simp only [List.length_cons] at h ⊢
    rw [setRegs, ih (k + 1) _ (by omega), getV_setV]
    have hk : (BitVec.ofNat 4 k).toNat = k := by simp [BitVec.toNat_ofNat]; omega
    by_cases h1 : r.toNat = k
    · have hr : r = BitVec.ofNat 4 k := BitVec.eq_of_toNat_eq (by omega)
      rw [if_neg (by omega), if_pos hr, if_pos (by omega), h1]
      simp
    · have hr : r ≠ BitVec.ofNat 4 k := fun e => h1 (by rw [e, hk])
      rw [if_neg hr]
      by_cases h2 : k + 1 ≤ r.toNat ∧ r.toNat < k + 1 + rest.length
      · have h4 : r.toNat - k = (r.toNat - (k + 1)) + 1 := by omega
        rw [if_pos h2, if_pos (by omega), h4]
        simp
      · rw [if_neg h2, if_neg (by omega)]

/-- Loading registers writes the register file only. -/
theorem setRegs_eq (bs : List Byte) (k : Nat) (s : State) : setRegs k bs s = { s with v := (setRegs k bs s).v } := by
  induction bs generalizing k s with
  | nil => rfl
  | cons b rest ih =>
    rw [setRegs, ih]
    rfl

@[simp] theorem regBlock_length (x : Reg) (s : State) : (regBlock x s).length = x.toNat + 1 := by
  have hx : x.toNat < 16 := x.isLt
  simp only [regBlock, List.length_take, Vector.length_toList]
  omega

/-- The stored block holds the registers in order (R134). -/
theorem regBlock_getD {x r : Reg} {s : State} (h : r.toNat ≤ x.toNat) : (regBlock x s).getD r.toNat 0 = s.getV r := by
  have hr : r.toNat < 16 := r.isLt
  have h' : r.toNat < x.toNat + 1 := by omega
  simp [regBlock, State.getV, List.getD, h', hr]

/-! ## Keys -/

/-- A byte up to 15 is a key code (R151). -/
theorem keyCode_ok {b : Byte} {k : Fin 16} (h : b.toNat = k.val) : keyCode b = .ok k := by
  have hb : b.toNat < 16 := by omega
  rw [keyCode, dif_pos hb]
  exact congrArg Except.ok (Fin.ext h)

/-- A byte above 15 is none (R168). -/
theorem keyCode_error {b : Byte} (h : 15 < b.toNat) : keyCode b = .error ⟨.boundsViolation .keyIndex, b.toNat⟩ := by
  rw [keyCode, dif_neg (by omega)]

/-- No key is the lowest exactly when none is pressed (R93). -/
theorem lowestKey_none {s : State} : lowestKey s = none ↔ ∀ k : Fin 16, s.key k = false := by
  simp [lowestKey, List.find?_eq_none]

/-- The lowest pressed key (R154). -/
theorem lowestKey_some {s : State} {k : Fin 16} : lowestKey s = some k ↔ s.key k = true ∧ ∀ j : Fin 16, j < k → s.key j = false := by
  rw [lowestKey, List.find?_eq_some_iff_getElem]
  constructor
  · rintro ⟨hk, i, hi, rfl, hlt⟩
    refine ⟨hk, fun j hj => ?_⟩
    have := hlt j.val (by simpa [Fin.lt_def] using hj)
    simpa using this
  · rintro ⟨hk, hlt⟩
    refine ⟨hk, k.val, by simp, by simp, fun j hj => ?_⟩
    have hj' : j < 16 := by omega
    simpa using hlt ⟨j, hj'⟩ hj

/-! ## The call stack -/

/-- A push with room (R103). -/
theorem push_ok {a : Word} {s : State} (h : s.sp.val < 16) :
    push a s = .ok { s with stack := s.stack.set s.sp.val a h, sp := ⟨s.sp.val + 1, Nat.succ_lt_succ h⟩ } := by
  rw [push, dif_pos h]

/-- A push without (R165). -/
theorem push_error {a : Word} {s : State} (h : s.sp.val = 16) : push a s = .error ⟨.boundsViolation .stackOverflow, 16⟩ := by
  rw [push, dif_neg (by omega)]

/-- A pop with an entry in use (R101). -/
theorem pop_ok {s : State} {k : Fin 16} (h : s.sp.val = k.val + 1) :
    pop s = .ok (s.stack[k], { s with sp := ⟨k.val, by omega⟩ }) := by
  have h0 : ¬ s.sp.val = 0 := by omega
  have hk : s.sp.val - 1 = k.val := by omega
  rw [pop, dif_neg h0]
  simp only [hk]
  rfl

/-- A pop without (R166). -/
theorem pop_error {s : State} (h : s.sp.val = 0) : pop s = .error ⟨.boundsViolation .stackUnderflow, 0⟩ := by
  rw [pop, dif_pos h]

/-- The stack after a push. -/
theorem stack_set (v : Vector Word 16) (n : Nat) (hn : n < 16) (a : Word) (k : Fin 16) :
    (v.set n a hn)[k] = if k.val = n then a else v[k] := by
  by_cases h : k.val = n
  · subst h
    simp
  · simp [h, Ne.symm h]

/-! ## The end of a step -/

/-- A timer counts down to 0 and stays there (R95). -/
@[simp] theorem tickDown_toNat (t : Byte) : (tickDown t).toNat = t.toNat - 1 := by
  unfold tickDown
  split
  · rename_i h; simp [h]
  · rename_i h
    have h1 : t.toNat ≠ 0 := fun e => h (BitVec.eq_of_toNat_eq (by simpa using e))
    have h2 : t.toNat < 256 := t.isLt
    rw [BitVec.toNat_sub]
    have h3 : (1 : Byte).toNat = 1 := rfl
    omega

/-- The tick beeps exactly when it finds `ST = 1` (R95). -/
theorem beeps_iff (s : State) : beeps s = true ↔ s.st.toNat = 1 := by
  rw [beeps, beq_iff_eq]
  exact ⟨fun h => by simp [h], fun h => BitVec.eq_of_toNat_eq (by simpa using h)⟩

@[simp] theorem complete_ok (w : Word) (e : Effect) (s : State) : complete w (.ok e) s = .next (finish e) := rfl
@[simp] theorem complete_error (w : Word) (c : Cause) (s : State) : complete w (.error c) s = .next (raise c (some w) s) := rfl

/-- Everything the rest of a step can do: an instruction completes or takes its fault, and always answers a state (R90). -/
theorem complete_cases (w : Word) (r : Except Cause Effect) (s : State) :
    (∃ e, r = .ok e ∧ complete w r s = .next (finish e)) ∨
    (∃ c, r = .error c ∧ complete w r s = .next (raise c (some w) s)) := by
  cases r with
  | ok e => exact .inl ⟨e, rfl, rfl⟩
  | error c => exact .inr ⟨c, rfl, rfl⟩

/-- The timers and the beep a completed step leaves (R95). -/
theorem ticksFrom_finish (e : Effect) : TicksFrom e.state.dt e.state.st (finish e) :=
  ⟨by simp, by simp, beeps_iff e.state⟩

/-- Everything a step can do, by the stage it ends in (R90, R99). -/
theorem step_cases (s : State) :
    (¬ running s ∧ step s = .next (halt s)) ∨
    (running s ∧ 4094 < s.pc.toNat ∧ step s = .next (raise ⟨.boundsViolation .pcOutOfRange, s.pc.toNat⟩ none s)) ∨
    (running s ∧ s.pc.toNat ≤ 4094 ∧ decode (fetchWord s) = none ∧
      step s = .next (raise ⟨.unsupportedOpcode, (fetchWord s).toNat⟩ (some (fetchWord s)) s)) ∨
    (running s ∧ s.pc.toNat ≤ 4094 ∧ ∃ i, decode (fetchWord s) = some i ∧ step s = exec i s) := by
  unfold step running
  cases hf : s.fault with
  | some r => exact .inl ⟨by simp, rfl⟩
  | none =>
    by_cases hp : 4094 < s.pc.toNat
    · exact .inr (.inl ⟨rfl, hp, by simp [fetch, hp]⟩)
    · have hp' : s.pc.toNat ≤ 4094 := by omega
      cases hd : decode (fetchWord s) with
      | none => exact .inr (.inr (.inl ⟨rfl, hp', rfl, by simp [fetch, hp, hd]⟩))
      | some i => exact .inr (.inr (.inr ⟨rfl, hp', i, rfl, by simp [fetch, hp, hd]⟩))

/-! ## The host's step -/

/-- What RND draws where the host hands a byte, and where it hands none (R125, R200). -/
@[simp] theorem drawn_some {s : State} {b : Byte} (h : s.offered = some b) : s.drawn = b := by rw [State.drawn, h]; rfl
@[simp] theorem drawn_none {s : State} (h : s.offered = none) : s.drawn = Config.rnd s.draws := by rw [State.drawn, h]; rfl

/-- A host step that answers a state is a step in which the byte was handed, and leaves the field as it found it (R200). -/
theorem stepWith_next {rnd : Byte} {s t : State} : stepWith rnd s = .next t ↔
    ∃ u, step { s with offered := some rnd } = .next u ∧ t = { u with offered := s.offered } := by
  unfold stepWith
  cases step { s with offered := some rnd } with
  | next u => exact ⟨fun h => by cases h; exact ⟨u, rfl, rfl⟩, fun ⟨_, h, e⟩ => by cases h; rw [e]⟩
  | fault r => exact ⟨nofun, fun ⟨_, h, _⟩ => nomatch h⟩
  | refused r => exact ⟨nofun, fun ⟨_, h, _⟩ => nomatch h⟩

end Sys2Proof.Machine
end

