-- ==== Sys2Proof/Laws/Framebuffer.lean ====
section
/-! SUPPORT. The framebuffer: reading after writing, and what one sprite bit does. -/
namespace Sys2Proof.Machine

theorem Framebuffer.get_set (fb : Framebuffer) (r r' : Fin 32) (c c' : Fin 64) (b : Bool) :
    (fb.set r c b).get r' c' = if r' = r ∧ c' = c then b else fb.get r' c' := by
  unfold Framebuffer.get Framebuffer.set
  by_cases hr : r' = r
  · subst hr
    by_cases hc : c' = c
    · subst hc; simp
    · have : c.val ≠ c'.val := fun e => hc (Fin.ext e.symm)
      simp [hc, this]
  · have : r.val ≠ r'.val := fun e => hr (Fin.ext e.symm)
    simp [hr, this]

@[simp] theorem Framebuffer.get_clear (r : Fin 32) (c : Fin 64) : Framebuffer.clear.get r c = false := by
  simp [Framebuffer.get, Framebuffer.clear]

/-- Two framebuffers with the same pixels are equal. -/
theorem Framebuffer.ext {a b : Framebuffer} (h : ∀ r c, a.get r c = b.get r c) : a = b := by
  apply Vector.ext
  intro r hr
  apply Vector.ext
  intro c hc
  exact h ⟨r, hr⟩ ⟨c, hc⟩

/-- One sprite bit's effect on a pixel (R143). -/
theorem drawBit_get (x0 y0 i j : Nat) (row : Byte) (d : Drawing) (r : Fin 32) (c : Fin 64) :
    (drawBit x0 y0 i row d j).fb.get r c =
      (d.fb.get r c ^^ (spriteBit row j && decide (r = wrapRow (y0 + i)) && decide (c = wrapCol (x0 + j)))) := by
  unfold drawBit
  split
  · rename_i h
    rw [Framebuffer.get_set]
    by_cases h1 : r = wrapRow (y0 + i) <;> by_cases h2 : c = wrapCol (x0 + j) <;> simp [h, h1, h2]
  · rename_i h
    simp [h]

theorem drawBit_toggled (x0 y0 i j : Nat) (row : Byte) (d : Drawing) :
    (drawBit x0 y0 i row d j).toggled = (d.toggled || spriteBit row j) := by
  unfold drawBit
  split <;> simp_all

theorem drawBit_collision (x0 y0 i j : Nat) (row : Byte) (d : Drawing) :
    (drawBit x0 y0 i row d j).collision =
      (d.collision || (spriteBit row j && d.fb.get (wrapRow (y0 + i)) (wrapCol (x0 + j)))) := by
  unfold drawBit
  split <;> simp_all

end Sys2Proof.Machine
end

