-- ==== Sys2Proof/Laws/Draw.lean ====
section
/-! SUPPORT. The draw engine as one pass over the cells of the sprite: what it does to a pixel, to the collision and to the
toggled flag, for a sprite of at most 32 rows, whose cells all differ. -/
namespace Sys2Proof.Machine

/-- A sprite bit: its row, its column, and the byte of its row. -/
abbrev SpriteCell := Nat × Nat × Byte

/-- The bit of a sprite cell. -/
abbrev SpriteCell.bit (p : SpriteCell) : Bool := spriteBit p.2.2 p.2.1

/-- The pixel a sprite cell is drawn to (R143). -/
abbrev SpriteCell.target (x0 y0 : Nat) (p : SpriteCell) : Fin 32 × Fin 64 := (wrapRow (y0 + p.1), wrapCol (x0 + p.2.1))

/-- The cells of the sprite rows from row `i` on, in drawing order. -/
def spriteCells : Nat → List Byte → List SpriteCell
  | _, [] => []
  | i, row :: rest => [0, 1, 2, 3, 4, 5, 6, 7].map (fun j => (i, j, row)) ++ spriteCells (i + 1) rest

theorem drawRows_eq_foldl (x0 y0 : Nat) (rows : List Byte) (i : Nat) (d : Drawing) :
    drawRows x0 y0 i rows d = (spriteCells i rows).foldl (fun d p => drawBit x0 y0 p.1 p.2.2 d p.2.1) d := by
  induction rows generalizing i d with
  | nil => rfl
  | cons row rest ih => rw [drawRows, ih, spriteCells, List.foldl_append]; rfl

theorem mem_spriteCells {rows : List Byte} {i : Nat} {p : SpriteCell} :
    p ∈ spriteCells i rows ↔ i ≤ p.1 ∧ p.1 < i + rows.length ∧ p.2.1 < 8 ∧ p.2.2 = rows.getD (p.1 - i) 0 := by
  induction rows generalizing i with
  | nil => simp [spriteCells]; omega
  | cons row rest ih =>
    obtain ⟨a, j, b⟩ := p
    have hj : (a, j, b) ∈ [0, 1, 2, 3, 4, 5, 6, 7].map (fun j => (i, j, row)) ↔ a = i ∧ j < 8 ∧ b = row := by
      have h8 : j < 8 ↔ j ∈ [0, 1, 2, 3, 4, 5, 6, 7] := by simp only [List.mem_cons, List.not_mem_nil, or_false]; omega
      rw [h8, List.mem_map]
      constructor
      · rintro ⟨k, hk, e⟩; cases e; exact ⟨rfl, hk, rfl⟩
      · rintro ⟨rfl, hk, rfl⟩; exact ⟨j, hk, rfl⟩
    rw [spriteCells, List.mem_append, hj, ih]
    rcases Nat.lt_trichotomy a i with h | h | h
    · have h1 : ¬ i + 1 ≤ a := by omega
      have h2 : ¬ i ≤ a := by omega
      have h3 : a ≠ i := by omega
      simp [h1, h2, h3]
    · subst h
      have h1 : ¬ a + 1 ≤ a := by omega
      simp [h1]
    · obtain ⟨k, rfl⟩ : ∃ k, a = i + 1 + k := ⟨a - (i + 1), by omega⟩
      have e1 : i + 1 + k - (i + 1) = k := by omega
      have e2 : i + 1 + k - i = k + 1 := by omega
      have e3 : i + 1 + k ≠ i := by omega
      have e4 : i ≤ i + 1 + k := by omega
      have e5 : i + 1 + k < i + 1 + rest.length ↔ i + 1 + k < i + (row :: rest).length := by
        simp only [List.length_cons]; omega
      simp only [e1, e2, e3, e4, e5, List.getD_cons_succ, false_and, false_or, true_and, Nat.le_add_right]

/-- Cells of a sprite of at most 32 rows have different targets. -/
theorem spriteCells_pairwise (x0 y0 : Nat) (rows : List Byte) (i : Nat) (h : rows.length ≤ 32) :
    (spriteCells i rows).Pairwise fun p q => p.target x0 y0 ≠ q.target x0 y0 := by
  induction rows generalizing i with
  | nil => exact List.Pairwise.nil
  | cons row rest ih =>
    simp only [List.length_cons] at h
    rw [spriteCells, List.pairwise_append]
    refine ⟨?_, ih (i + 1) (by omega), ?_⟩
    · simp only [List.map_cons, List.map_nil, List.pairwise_cons, List.mem_cons, List.not_mem_nil, or_false, SpriteCell.target,
        wrapCol, ne_eq, Prod.mk.injEq, Fin.mk.injEq]
      refine ⟨?_, ?_, ?_, ?_, ?_, ?_, ?_, ?_, List.Pairwise.nil⟩ <;> simp <;> omega
    · intro p hp q hq
      obtain ⟨j, -, rfl⟩ := List.mem_map.1 hp
      have hq' := mem_spriteCells.1 hq
      simp only [SpriteCell.target, wrapRow, ne_eq, Prod.mk.injEq, Fin.mk.injEq, not_and_or]
      left
      omega

/-- One pass over cells with different targets. -/
theorem foldl_drawBit (x0 y0 : Nat) (L : List SpriteCell) (hL : L.Pairwise fun p q => p.target x0 y0 ≠ q.target x0 y0)
    (d : Drawing) :
    (∀ r c, (L.foldl (fun d p => drawBit x0 y0 p.1 p.2.2 d p.2.1) d).fb.get r c =
      (d.fb.get r c ^^ L.any fun p => p.bit && decide (p.target x0 y0 = (r, c)))) ∧
    (L.foldl (fun d p => drawBit x0 y0 p.1 p.2.2 d p.2.1) d).collision =
      (d.collision || L.any fun p => p.bit && d.fb.get (p.target x0 y0).1 (p.target x0 y0).2) ∧
    (L.foldl (fun d p => drawBit x0 y0 p.1 p.2.2 d p.2.1) d).toggled = (d.toggled || L.any (·.bit)) := by
  induction L generalizing d with
  | nil => simp
  | cons p rest ih =>
    rw [List.pairwise_cons] at hL
    obtain ⟨h1, h2, h3⟩ := ih hL.2 (drawBit x0 y0 p.1 p.2.2 d p.2.1)
    simp only [List.foldl_cons, List.any_cons]
    refine ⟨fun r c => ?_, ?_, ?_⟩
    · rw [h1, drawBit_get]
      by_cases hp : p.target x0 y0 = (r, c)
      · have hn : (rest.any fun q => q.bit && decide (q.target x0 y0 = (r, c))) = false := by
          rw [List.any_eq_false]
          intro q hq
          have := hL.1 q hq
          rw [hp] at this
          simp [this.symm]
        rw [hn]
        obtain ⟨e1, e2⟩ := Prod.mk.inj hp
        subst e1 e2
        simp [SpriteCell.bit]
      · have hn : (decide (r = wrapRow (y0 + p.1)) && decide (c = wrapCol (x0 + p.2.1))) = false := by
          rw [← Bool.not_eq_true]
          intro e
          simp only [Bool.and_eq_true, decide_eq_true_eq] at e
          exact hp (Prod.ext e.1.symm e.2.symm)
        rw [Bool.and_assoc, hn]
        simp [hp]
    · have hr : (rest.any fun q => q.bit &&
            (drawBit x0 y0 p.1 p.2.2 d p.2.1).fb.get (q.target x0 y0).1 (q.target x0 y0).2) =
          rest.any fun q => q.bit && d.fb.get (q.target x0 y0).1 (q.target x0 y0).2 := by
        rw [Bool.eq_iff_iff, List.any_eq_true, List.any_eq_true]
        refine exists_congr fun q => and_congr_right fun hq => ?_
        have hn : (decide ((q.target x0 y0).1 = wrapRow (y0 + p.1)) && decide ((q.target x0 y0).2 = wrapCol (x0 + p.2.1))) =
            false := by
          rw [← Bool.not_eq_true]
          intro e
          simp only [Bool.and_eq_true, decide_eq_true_eq] at e
          exact hL.1 q hq (Prod.ext e.1.symm e.2.symm)
        rw [drawBit_get, Bool.and_assoc, hn]
        simp
      rw [h2, hr, drawBit_collision, Bool.or_assoc]
    · rw [h3, drawBit_toggled, Bool.or_assoc]

/-- Everything a draw of at most 32 rows does (R143 to R145): the pixels, the collision, and whether a pixel was toggled. -/
theorem draw_eq (x0 y0 : Nat) (rows : List Byte) (fb : Framebuffer) (h : rows.length ≤ 32) :
    (∀ r c, (draw x0 y0 rows fb).fb.get r c =
      (fb.get r c ^^ (spriteCells 0 rows).any fun p => p.bit && decide (p.target x0 y0 = (r, c)))) ∧
    (draw x0 y0 rows fb).collision =
      ((spriteCells 0 rows).any fun p => p.bit && fb.get (p.target x0 y0).1 (p.target x0 y0).2) ∧
    (draw x0 y0 rows fb).toggled = (spriteCells 0 rows).any (·.bit) := by
  have := foldl_drawBit x0 y0 _ (spriteCells_pairwise x0 y0 rows 0 h) ⟨fb, false, false⟩
  simpa only [draw, drawRows_eq_foldl, Bool.false_or] using this

end Sys2Proof.Machine
end

