-- ==== Sys2Proof/Laws/Exec.lean ====
section
/-! SUPPORT. Everything the execution of an instruction can do, said once: it completes, raises, or holds. Claims about all
instructions follow from `exec_cases` without unfolding a meaning. -/
namespace Sys2Proof.Machine

/-- What executing `i` from `s` can have done when it hands `e` to the end of the step. -/
structure Executes (i : Instr) (s : State) (e : Effect) : Prop where
  pc        : e.state.pc = s.pc
  fault     : e.state.fault = s.fault
  keys      : e.state.keys = s.keys
  offered   : e.state.offered = s.offered
  dt        : e.state.dt = i.dtBeforeTick s
  st        : e.state.st = i.stBeforeTick s
  refresh   : e.refresh = true → ∃ x y n, i = .drwVxVyN x y n
  regs      : ∀ r, i.mayWriteReg r = false → e.state.getV r = s.getV r
  flag      : i.writesFlag → e.state.getV VF = 0 ∨ e.state.getV VF = 1
  index     : ¬ i.writesIndex → e.state.index = s.index
  stack     : ¬ i.movesStack → e.state.sp = s.sp ∧ e.state.stack = s.stack
  mem       : ¬ i.storesMem → e.state.mem = s.mem
  fb        : ¬ i.writesFb → e.state.fb = s.fb
  directive : e.directive = .next ∨ (i.maySkip ∧ e.directive = .skip) ∨ (i.jumps ∧ ∃ a, e.directive = .jump a)
  canonical : MemoryCanonical s → MemoryCanonical e.state
  stackLow  : PcBounded s → s.pc.toNat ≤ 4094 → ∀ k : Fin 16, (e.state.stack[k]).toNat ≤ 0x1000
  jumpLow   : PcBounded s → ∀ a, e.directive = .jump a → a.toNat ≤ 0x10FE

/-- The one condition an instruction can raise, where it holds (R173, rows 3 to 7). -/
def Raises (i : Instr) (s : State) (c : Cause) : Prop :=
  (c.kind = .boundsViolation .memAddress ∧ c.value = max s.index.toNat 0x1000 ∧
    ((∃ x y n, i = .drwVxVyN x y n ∧ n ≠ 0 ∧ 0xFFF < s.index.toNat + (n.toNat - 1)) ∨
     (∃ x, i = .ldBVx x ∧ 0xFFF < s.index.toNat + 2) ∨
     (∃ x, (i = .ldMemVx x ∨ i = .ldVxMem x) ∧ 0xFFF < s.index.toNat + x.toNat))) ∨
  (c.kind = .boundsViolation .stackOverflow ∧ c.value = 16 ∧ (∃ nnn, i = .callAddr nnn) ∧ s.sp.val = 16) ∨
  (c.kind = .boundsViolation .stackUnderflow ∧ c.value = 0 ∧ i = .ret ∧ s.sp.val = 0) ∨
  (c.kind = .boundsViolation .indexOverflow ∧
    (∃ x, i = .addIVx x ∧ c.value = s.index.toNat + (s.getV x).toNat ∧ 0xFFFF < c.value)) ∨
  (c.kind = .boundsViolation .keyIndex ∧ (∃ x, (i = .skpVx x ∨ i = .sknpVx x) ∧ c.value = (s.getV x).toNat ∧ 15 < c.value))

/-- The ends of an execution. -/
def Ends (i : Instr) (s t : State) : Prop :=
  (∃ e, t = finish e ∧ Executes i s e) ∨ (∃ c, t = raise c (some (encode i)) s ∧ Raises i s c) ∨
    (∃ x, i = .ldVxK x ∧ lowestKey s = none ∧ t = hold s)

/-- An instruction that writes at most registers and `draws`. -/
theorem ends_of_regs {i : Instr} {s s' : State} {d : Directive} (hs : { s' with v := s.v, draws := s.draws } = s)
    (hr : ∀ r, i.mayWriteReg r = false → s'.getV r = s.getV r) (hf : i.writesFlag → s'.getV VF = 0 ∨ s'.getV VF = 1)
    (hdt : i.dtBeforeTick s = s.dt) (hst : i.stBeforeTick s = s.st) (hd : d = .next ∨ (i.maySkip ∧ d = .skip)) :
    Ends i s (finish ⟨s', d, false⟩) := by
  have hmem : s'.mem = s.mem := by rw [← hs]
  have hstack : s'.stack = s.stack := by rw [← hs]
  refine .inl ⟨_, rfl, ?_⟩
  exact
    { pc := by rw [← hs]
      fault := by rw [← hs]
      keys := by rw [← hs]
      offered := by rw [← hs]
      dt := by rw [hdt, ← hs]
      st := by rw [hst, ← hs]
      refresh := by simp
      regs := hr
      flag := hf
      index := fun _ => by rw [← hs]
      stack := fun _ => ⟨by rw [← hs], hstack⟩
      mem := fun _ => hmem
      fb := fun _ => by rw [← hs]
      directive := hd.imp id fun h => .inl h
      canonical := by simp [MemoryCanonical, hmem]
      stackLow := fun h _ k => by simpa [hstack] using h.2 k
      jumpLow := fun _ a ha => by rcases hd with h | h <;> simp_all }

/-- An instruction that writes at most `I`, the timers, memory and the framebuffer, and returns `Next`. -/
theorem ends_of_next {i : Instr} {s s' : State}
    (hs : { s' with index := s.index, dt := s.dt, st := s.st, mem := s.mem, fb := s.fb } = s)
    (hf : ¬ i.writesFlag) (hdt : s'.dt = i.dtBeforeTick s) (hst : s'.st = i.stBeforeTick s)
    (hi : ¬ i.writesIndex → s'.index = s.index) (hm : ¬ i.storesMem → s'.mem = s.mem) (hfb : ¬ i.writesFb → s'.fb = s.fb)
    (hc : MemoryCanonical s → MemoryCanonical s') : Ends i s (finish ⟨s', .next, false⟩) := by
  have hstack : s'.stack = s.stack := by rw [← hs]
  refine .inl ⟨_, rfl, ?_⟩
  exact
    { pc := by rw [← hs]
      fault := by rw [← hs]
      keys := by rw [← hs]
      offered := by rw [← hs]
      dt := hdt
      st := hst
      refresh := by simp
      regs := fun r _ => getV_congr (by rw [← hs]) r
      flag := fun h => absurd h hf
      index := hi
      stack := fun _ => ⟨by rw [← hs], hstack⟩
      mem := hm
      fb := hfb
      directive := .inl rfl
      canonical := hc
      stackLow := fun h _ k => by simpa [hstack] using h.2 k
      jumpLow := by simp }

/-- A jump that writes at most the stack. -/
theorem ends_of_jump {i : Instr} {s s' : State} {a : Word} (hs : { s' with sp := s.sp, stack := s.stack } = s)
    (hf : ¬ i.writesFlag) (hdt : i.dtBeforeTick s = s.dt) (hst : i.stBeforeTick s = s.st) (hj : i.jumps)
    (hk : ¬ i.movesStack → s'.sp = s.sp ∧ s'.stack = s.stack)
    (hl : PcBounded s → s.pc.toNat ≤ 4094 → ∀ k : Fin 16, (s'.stack[k]).toNat ≤ 0x1000)
    (ha : PcBounded s → a.toNat ≤ 0x10FE) : Ends i s (finish ⟨s', .jump a, false⟩) := by
  have hmem : s'.mem = s.mem := by rw [← hs]
  refine .inl ⟨_, rfl, ?_⟩
  exact
    { pc := by rw [← hs]
      fault := by rw [← hs]
      keys := by rw [← hs]
      offered := by rw [← hs]
      dt := by rw [hdt, ← hs]
      st := by rw [hst, ← hs]
      refresh := by simp
      regs := fun r _ => getV_congr (by rw [← hs]) r
      flag := fun h => absurd h hf
      index := fun _ => by rw [← hs]
      stack := hk
      mem := fun _ => hmem
      fb := fun _ => by rw [← hs]
      directive := .inr (.inr ⟨hj, a, rfl⟩)
      canonical := by simp [MemoryCanonical, hmem]
      stackLow := hl
      jumpLow := fun h b hb => by cases hb; exact ha h }

theorem zext16_toNat (nnn : Addr12) : (zext16 nnn).toNat = nnn.toNat := by
  have h : nnn.toNat < 4096 := nnn.isLt
  simp only [zext16, BitVec.toNat_setWidth]
  omega

theorem zextByte_toNat (b : Byte) : (zextByte b).toNat = b.toNat := by
  have h : b.toNat < 256 := b.isLt
  simp only [zextByte, BitVec.toNat_setWidth]
  omega

/-- A skip's directive. -/
theorem skip_or_next {i : Instr} (h : i.maySkip) (c : Bool) :
    (if c = true then Directive.skip else .next) = .next ∨ (i.maySkip ∧ (if c = true then Directive.skip else .next) = .skip) := by
  cases c
  · exact .inl rfl
  · exact .inr ⟨h, rfl⟩

theorem nibble_ne_zero {n : Nibble} (h : n ≠ 0) : n.toNat ≠ 0 := fun e => h (BitVec.eq_of_toNat_eq (by simpa using e))

/-- DRW passes its check exactly when it reads nothing or its last row exists (R142). -/
theorem checkRows_ok {n : Nibble} {s : State} (h : n = 0 ∨ s.index.toNat + (n.toNat - 1) ≤ 0xFFF) : checkRows n s = .ok () := by
  unfold checkRows
  split
  · rfl
  · exact checkRange_ok (h.resolve_left ‹_›)

theorem checkRows_error {n : Nibble} {s : State} (hn : n ≠ 0) (h : 0xFFF < s.index.toNat + (n.toNat - 1)) :
    checkRows n s = .error (badAddress (max s.index.toNat 0x1000)) := by
  rw [checkRows, if_neg hn, checkRange_error h]

/-- DRW where it completes: the draw engine on the rows at `I`, then the flag (R142). -/
theorem execDrwVxVyN_ok {x y : Reg} {n : Nibble} {s : State} (h : n = 0 ∨ s.index.toNat + (n.toNat - 1) ≤ 0xFFF) :
    execDrwVxVyN x y n s = .next (finish ⟨
      ({ s with fb := (draw (s.getV x).toNat (s.getV y).toNat (memRows s s.index.toNat n.toNat) s.fb).fb }).setFlag
        (draw (s.getV x).toNat (s.getV y).toNat (memRows s s.index.toNat n.toNat) s.fb).collision,
      .next, (draw (s.getV x).toNat (s.getV y).toNat (memRows s s.index.toNat n.toNat) s.fb).toggled⟩) := by
  have hl : n.toNat = 0 ∨ s.index.toNat + n.toNat ≤ 0x1000 := by
    rcases h with h | h
    · exact .inl (by simp [h])
    · omega
  simp only [execDrwVxVyN, checkRows_ok h, loadBytes_ok hl]
  rfl

theorem decimalDigits_length (v : Byte) : (decimalDigits v).length = 3 := rfl

/-- LD B,Vx where it completes (R136). -/
theorem execLdBVx_ok {x : Reg} {s : State} (h : s.index.toNat + 2 ≤ 0xFFF) :
    execLdBVx x s = .next (finish ⟨{ s with mem := s.mem.writeAll s.index.toNat (decimalDigits (s.getV x)) }, .next, false⟩) := by
  have hl : s.index.toNat + (decimalDigits (s.getV x)).length ≤ 0x1000 := by rw [decimalDigits_length]; omega
  simp only [execLdBVx, checkRange_ok h, storeBytes_ok hl]
  rfl

/-- LD [I],Vx where it completes (R134). -/
theorem execLdMemVx_ok {x : Reg} {s : State} (h : s.index.toNat + x.toNat ≤ 0xFFF) :
    execLdMemVx x s = .next (finish ⟨{ s with mem := s.mem.writeAll s.index.toNat (regBlock x s) }, .next, false⟩) := by
  have hl : s.index.toNat + (regBlock x s).length ≤ 0x1000 := by rw [regBlock_length]; omega
  simp only [execLdMemVx, checkRange_ok h, storeBytes_ok hl]
  rfl

/-- LD Vx,[I] where it completes (R135). -/
theorem execLdVxMem_ok {x : Reg} {s : State} (h : s.index.toNat + x.toNat ≤ 0xFFF) :
    execLdVxMem x s = .next (finish ⟨setRegs 0 (memRows s s.index.toNat (x.toNat + 1)) s, .next, false⟩) := by
  have hl : x.toNat + 1 = 0 ∨ s.index.toNat + (x.toNat + 1) ≤ 0x1000 := by omega
  simp only [execLdVxMem, checkRange_ok h, loadBytes_ok hl]
  rfl

/-- CALL where it completes (R103). -/
theorem execCallAddr_ok {nnn : Addr12} {s : State} (h : s.sp.val < 16) :
    execCallAddr nnn s = .next (finish ⟨
      { s with stack := s.stack.set s.sp.val (s.pc + 2) h, sp := ⟨s.sp.val + 1, Nat.succ_lt_succ h⟩ },
      .jump (zext16 nnn), false⟩) := by
  simp only [execCallAddr, push_ok h]
  rfl

/-- RET where it completes (R101). -/
theorem execRet_ok {s : State} {k : Fin 16} (h : s.sp.val = k.val + 1) :
    execRet s = .next (finish ⟨{ s with sp := ⟨k.val, by omega⟩ }, .jump s.stack[k], false⟩) := by
  simp only [execRet, pop_ok h]
  rfl

/-- ADD I,Vx where it completes (R132). -/
theorem execAddIVx_ok {x : Reg} {s : State} (h : s.index.toNat + (s.getV x).toNat ≤ 0xFFFF) :
    execAddIVx x s = .next (finish ⟨s.setI (s.index + zextByte (s.getV x)), .next, false⟩) := by
  simp only [execAddIVx, if_neg (Nat.not_lt.2 h)]
  rfl

/-- SKP where it completes (R151). -/
theorem execSkpVx_ok {x : Reg} {s : State} {k : Fin 16} (h : (s.getV x).toNat = k.val) :
    execSkpVx x s = .next (finish ⟨s, if s.key k then .skip else .next, false⟩) := by
  simp only [execSkpVx, keyCode_ok h]
  rfl

/-- SKNP where it completes (R152). -/
theorem execSknpVx_ok {x : Reg} {s : State} {k : Fin 16} (h : (s.getV x).toNat = k.val) :
    execSknpVx x s = .next (finish ⟨s, if !s.key k then .skip else .next, false⟩) := by
  simp only [execSknpVx, keyCode_ok h]
  rfl

/-- LD Vx,K where it completes (R154). -/
theorem execLdVxK_ok {x : Reg} {s : State} {k : Fin 16} (h : lowestKey s = some k) :
    execLdVxK x s = .next (finish ⟨s.setV x (BitVec.ofNat 8 k.val), .next, false⟩) := by
  simp only [execLdVxK, h]
  rfl

/-- The frame of an effect that writes nothing. -/
theorem writesPcOnly_finish (s : State) (d : Directive) : WritesPcOnly (d.target s.pc) s (finish ⟨s, d, false⟩) :=
  ⟨⟨rfl, rfl, rfl⟩, ticksFrom_finish _, fun _ => rfl, rfl, ⟨rfl, fun _ => rfl⟩, fun _ => rfl, fun _ _ => rfl,
    ⟨fun _ => rfl, rfl, rfl⟩, rfl⟩

/-- The frame of an effect that writes registers, and takes a draw, at most. -/
theorem writesRegsOnly_finish {s s' : State} (h : { s' with v := s.v, draws := s.draws } = s) :
    WritesRegsOnly s (finish ⟨s', .next, false⟩) := by
  have hv : s' = { s with v := s'.v, draws := s'.draws } := by rw [← h]
  rw [hv]
  exact ⟨⟨rfl, rfl, rfl⟩, ticksFrom_finish _, rfl, ⟨rfl, fun _ => rfl⟩, fun _ => rfl, fun _ _ => rfl, ⟨fun _ => rfl, rfl, rfl⟩⟩

/-- Everything the execution of an instruction can do. -/
theorem exec_cases {i : Instr} {s t : State} (h : exec i s = .next t) : Ends i s t := by
  cases i <;> simp only [exec] at h
  case cls => cases h; exact ends_of_next rfl id rfl rfl (fun _ => rfl) (fun _ => rfl) (fun h => absurd trivial h) id
  case ldDtVx x => cases h; exact ends_of_next rfl id rfl rfl (fun _ => rfl) (fun _ => rfl) (fun _ => rfl) id
  case ldStVx x => cases h; exact ends_of_next rfl id rfl rfl (fun _ => rfl) (fun _ => rfl) (fun _ => rfl) id
  case ldIAddr n => cases h; exact ends_of_next rfl id rfl rfl (fun h => absurd trivial h) (fun _ => rfl) (fun _ => rfl) id
  case ldFVx x => cases h; exact ends_of_next rfl id rfl rfl (fun h => absurd trivial h) (fun _ => rfl) (fun _ => rfl) id
  case addIVx x =>
    by_cases hk : 0xFFFF < s.index.toNat + (s.getV x).toNat
    · simp only [execAddIVx, if_pos hk] at h
      cases h
      exact .inr (.inl ⟨_, rfl, .inr (.inr (.inr (.inl ⟨rfl, x, rfl, rfl, hk⟩)))⟩)
    · simp only [execAddIVx, if_neg hk] at h
      cases h
      exact ends_of_next rfl id rfl rfl (fun h => absurd trivial h) (fun _ => rfl) (fun _ => rfl) id
  case jpAddr n =>
    cases h
    exact ends_of_jump rfl id rfl rfl trivial (fun _ => ⟨rfl, rfl⟩) (fun h _ => h.2)
      fun _ => by have := n.isLt; rw [zext16_toNat]; omega
  case jpV0Addr n =>
    cases h
    refine ends_of_jump rfl id rfl rfl trivial (fun _ => ⟨rfl, rfl⟩) (fun h _ => h.2) fun _ => ?_
    have h1 := n.isLt
    have h2 := (s.getV 0).isLt
    rw [BitVec.toNat_add, zext16_toNat, zextByte_toNat]
    omega
  case ret =>
    by_cases h0 : s.sp.val = 0
    · simp only [execRet, pop_error h0] at h
      cases h
      exact .inr (.inl ⟨_, rfl, .inr (.inr (.inl ⟨rfl, rfl, rfl, h0⟩))⟩)
    · obtain ⟨k, hk⟩ : ∃ k : Fin 16, s.sp.val = k.val + 1 := ⟨⟨s.sp.val - 1, by omega⟩, by simp only; omega⟩
      simp only [execRet, pop_ok hk] at h
      cases h
      exact ends_of_jump rfl id rfl rfl trivial (fun h => absurd trivial h) (fun h _ => h.2)
        fun h => le_trans (h.2 k) (by decide)
  case callAddr n =>
    by_cases h0 : s.sp.val < 16
    · simp only [execCallAddr, push_ok h0] at h
      cases h
      refine ends_of_jump rfl id rfl rfl trivial (fun h => absurd trivial h) (fun h hp k => ?_)
        fun _ => by have := n.isLt; rw [zext16_toNat]; omega
      rw [stack_set]
      split
      · rw [BitVec.toNat_add]
        exact le_trans (Nat.mod_le _ _) (Nat.add_le_add_right hp 2)
      · exact h.2 k
    · have h1 : s.sp.val = 16 := by omega
      simp only [execCallAddr, push_error h1] at h
      cases h
      exact .inr (.inl ⟨_, rfl, .inr (.inl ⟨rfl, rfl, ⟨_, rfl⟩, h1⟩)⟩)
  case skpVx x =>
    by_cases hk : (s.getV x).toNat < 16
    · simp only [execSkpVx, keyCode_ok (k := ⟨_, hk⟩) rfl, bind, Except.bind, returnSkipIf] at h
      cases h
      exact ends_of_regs rfl (fun _ _ => rfl) (fun h => h.elim) rfl rfl (skip_or_next (i := .skpVx x) trivial _)
    · have h15 : 15 < (s.getV x).toNat := by omega
      simp only [execSkpVx, keyCode_error h15] at h
      cases h
      exact .inr (.inl ⟨_, rfl, .inr (.inr (.inr (.inr ⟨rfl, x, .inl rfl, rfl, h15⟩)))⟩)
  case sknpVx x =>
    by_cases hk : (s.getV x).toNat < 16
    · simp only [execSknpVx, keyCode_ok (k := ⟨_, hk⟩) rfl, bind, Except.bind, returnSkipIf] at h
      cases h
      exact ends_of_regs rfl (fun _ _ => rfl) (fun h => h.elim) rfl rfl (skip_or_next (i := .sknpVx x) trivial _)
    · have h15 : 15 < (s.getV x).toNat := by omega
      simp only [execSknpVx, keyCode_error h15] at h
      cases h
      exact .inr (.inl ⟨_, rfl, .inr (.inr (.inr (.inr ⟨rfl, x, .inr rfl, rfl, h15⟩)))⟩)
  case ldVxK x =>
    unfold execLdVxK at h
    split at h
    · rename_i hk
      cases h
      exact .inr (.inr ⟨x, rfl, hk, rfl⟩)
    · cases h
      exact ends_of_regs rfl (fun r hr => by simp_all [Instr.mayWriteReg]) (fun h => h.elim) rfl rfl (.inl rfl)
  case ldBVx x =>
    by_cases hk : 0xFFF < s.index.toNat + 2
    · simp only [execLdBVx, checkRange_error hk] at h
      cases h
      exact .inr (.inl ⟨_, rfl, .inl ⟨rfl, rfl, .inr (.inl ⟨x, rfl, hk⟩)⟩⟩)
    · rw [execLdBVx_ok (by omega)] at h
      cases h
      exact ends_of_next rfl id rfl rfl (fun _ => rfl) (fun h => absurd trivial h) (fun _ => rfl)
        fun h => Memory.wf_writeAll h (by rw [decimalDigits_length]; omega)
  case ldMemVx x =>
    by_cases hk : 0xFFF < s.index.toNat + x.toNat
    · simp only [execLdMemVx, checkRange_error hk] at h
      cases h
      exact .inr (.inl ⟨_, rfl, .inl ⟨rfl, rfl, .inr (.inr ⟨x, .inl rfl, hk⟩)⟩⟩)
    · rw [execLdMemVx_ok (by omega)] at h
      cases h
      exact ends_of_next rfl id rfl rfl (fun _ => rfl) (fun h => absurd trivial h) (fun _ => rfl)
        fun h => Memory.wf_writeAll h (by rw [regBlock_length]; omega)
  case ldVxMem x =>
    by_cases hk : 0xFFF < s.index.toNat + x.toNat
    · simp only [execLdVxMem, checkRange_error hk] at h
      cases h
      exact .inr (.inl ⟨_, rfl, .inl ⟨rfl, rfl, .inr (.inr ⟨x, .inr rfl, hk⟩)⟩⟩)
    · rw [execLdVxMem_ok (by omega)] at h
      cases h
      refine ends_of_regs (by rw [setRegs_eq]) (fun r hr => ?_) (fun h => h.elim) rfl rfl (.inl rfl)
      have hx : x.toNat < 16 := x.isLt
      have hr' : ¬ r.toNat ≤ x.toNat := by simpa [Instr.mayWriteReg] using hr
      rw [getV_setRegs _ _ _ (by simp only [memRows_length]; omega), if_neg (by simp only [memRows_length]; omega)]
  case drwVxVyN x y n =>
    by_cases hk : n = 0 ∨ s.index.toNat + (n.toNat - 1) ≤ 0xFFF
    · rw [execDrwVxVyN_ok hk] at h
      cases h
      refine .inl ⟨_, rfl, ?_⟩
      exact
        { pc := rfl, fault := rfl, keys := rfl, offered := rfl, dt := rfl, st := rfl
          refresh := fun _ => ⟨x, y, n, rfl⟩
          regs := fun r hr => by
            have hr' : r ≠ VF := by simpa [Instr.mayWriteReg] using hr
            rw [State.setFlag, getV_setV, if_neg hr']
            rfl
          flag := fun _ => by
            rw [State.setFlag, getV_setV, if_pos rfl]
            exact flagByte_cases _
          index := fun _ => rfl
          stack := fun _ => ⟨rfl, rfl⟩
          mem := fun _ => rfl
          fb := fun h => absurd trivial h
          directive := .inl rfl
          canonical := id
          stackLow := fun h _ => h.2
          jumpLow := by simp }
    · have hn : n ≠ 0 := fun e => hk (.inl e)
      have hk' : 0xFFF < s.index.toNat + (n.toNat - 1) := by
        rcases not_or.1 hk with ⟨_, h2⟩
        omega
      simp only [execDrwVxVyN, checkRows_error hn hk'] at h
      cases h
      exact .inr (.inl ⟨_, rfl, .inl ⟨rfl, rfl, .inl ⟨x, y, n, rfl, hn, hk'⟩⟩⟩)
  case seVxKk x b =>
    cases h
    exact ends_of_regs rfl (fun _ _ => rfl) (fun h => h.elim) rfl rfl (skip_or_next (i := .seVxKk x b) trivial _)
  case sneVxKk x b =>
    cases h
    exact ends_of_regs rfl (fun _ _ => rfl) (fun h => h.elim) rfl rfl (skip_or_next (i := .sneVxKk x b) trivial _)
  case seVxVy x b =>
    cases h
    exact ends_of_regs rfl (fun _ _ => rfl) (fun h => h.elim) rfl rfl (skip_or_next (i := .seVxVy x b) trivial _)
  case sneVxVy x b =>
    cases h
    exact ends_of_regs rfl (fun _ _ => rfl) (fun h => h.elim) rfl rfl (skip_or_next (i := .sneVxVy x b) trivial _)
  case rndVxKk x kk =>
    cases h
    refine ends_of_regs rfl (fun r hr => ?_) (fun h => h.elim) rfl rfl (.inl rfl)
    have hr' : r ≠ x := by simpa [Instr.mayWriteReg] using hr
    exact (getV_setV s x r _).trans (if_neg hr')
  case addVxVy | subVxVy | subnVxVy | shrVx | shlVx =>
    cases h
    refine ends_of_regs rfl (fun r hr => ?_) (fun _ => ?_) rfl rfl (.inl rfl)
    · simp_all [Instr.mayWriteReg, getV_setResultFlag]
    · rw [getV_setResultFlag, if_pos rfl]
      exact flagByte_cases _
  case ldVxKk | addVxKk | ldVxVy | orVxVy | andVxVy | xorVxVy | ldVxDt =>
    cases h
    refine ends_of_regs rfl (fun r hr => ?_) (fun h => h.elim) rfl rfl (.inl rfl)
    simp_all [Instr.mayWriteReg]

/-- An execution always answers a state (R90). -/
theorem exec_next (i : Instr) (s : State) : ∃ t, exec i s = .next t := by
  cases i <;> simp only [exec]
  case ldVxK x =>
    unfold execLdVxK
    split
    · exact ⟨_, rfl⟩
    · exact ⟨_, rfl⟩
  all_goals exact (complete_cases _ _ s).elim (fun ⟨_, _, h⟩ => ⟨_, h⟩) fun ⟨_, _, h⟩ => ⟨_, h⟩

end Sys2Proof.Machine
end

