-- ==== Sys2Proof/Laws/PerInstr.lean ====
section
/-! SUPPORT. Statements for all instructions, one lemma per constructor: every encoding matches its own row of R75's table. -/
namespace Sys2Proof.Laws.EncodesItsRow

/-- The instruction's word fits the mask and match R75 gives its row, and that row is in the table. -/
def Statement (i : Instr) : Prop := (patternOf i).fits (encode i) = true ∧ patternOf i ∈ patterns

theorem formatA_fits (op : Nibble) (nnn : Addr12) : (Pattern.mk 0xF000 (formatA op 0)).fits (formatA op nnn) = true := by
  simp only [Pattern.fits, formatA, beq_iff_eq]
  ext k hk
  interval_cases k <;> simp

theorem formatI_fits (op : Nibble) (x : Reg) (kk : Byte) : (Pattern.mk 0xF000 (formatI op 0 0)).fits (formatI op x kk) = true := by
  simp only [Pattern.fits, formatI, beq_iff_eq]
  ext k hk
  interval_cases k <;> simp

theorem formatX_fits (op : Nibble) (x : Reg) (kk : Byte) : (Pattern.mk 0xF0FF (formatI op 0 kk)).fits (formatI op x kk) = true := by
  simp only [Pattern.fits, formatI, beq_iff_eq]
  ext k hk
  interval_cases k <;> simp

theorem formatR_fits (op : Nibble) (x y : Reg) (f : Nibble) : (Pattern.mk 0xF00F (formatR op 0 0 f)).fits (formatR op x y f) = true := by
  simp only [Pattern.fits, formatR, beq_iff_eq]
  ext k hk
  interval_cases k <;> simp

theorem formatD_fits (op : Nibble) (x y : Reg) (f : Nibble) : (Pattern.mk 0xF000 (formatR op 0 0 0)).fits (formatR op x y f) = true := by
  simp only [Pattern.fits, formatR, beq_iff_eq]
  ext k hk
  interval_cases k <;> simp

theorem cls : Statement (.cls) := ⟨rfl, by decide⟩
theorem ret : Statement (.ret) := ⟨rfl, by decide⟩
theorem jpAddr (nnn : Addr12) : Statement (.jpAddr nnn) := ⟨formatA_fits _ _, by simp [patterns, patternOf]⟩
theorem callAddr (nnn : Addr12) : Statement (.callAddr nnn) := ⟨formatA_fits _ _, by simp [patterns, patternOf]⟩
theorem seVxKk (x : Reg) (kk : Byte) : Statement (.seVxKk x kk) := ⟨formatI_fits _ _ _, by simp [patterns, patternOf]⟩
theorem sneVxKk (x : Reg) (kk : Byte) : Statement (.sneVxKk x kk) := ⟨formatI_fits _ _ _, by simp [patterns, patternOf]⟩
theorem seVxVy (x y : Reg) : Statement (.seVxVy x y) := ⟨formatR_fits _ _ _ _, by simp [patterns, patternOf]⟩
theorem ldVxKk (x : Reg) (kk : Byte) : Statement (.ldVxKk x kk) := ⟨formatI_fits _ _ _, by simp [patterns, patternOf]⟩
theorem addVxKk (x : Reg) (kk : Byte) : Statement (.addVxKk x kk) := ⟨formatI_fits _ _ _, by simp [patterns, patternOf]⟩
theorem ldVxVy (x y : Reg) : Statement (.ldVxVy x y) := ⟨formatR_fits _ _ _ _, by simp [patterns, patternOf]⟩
theorem orVxVy (x y : Reg) : Statement (.orVxVy x y) := ⟨formatR_fits _ _ _ _, by simp [patterns, patternOf]⟩
theorem andVxVy (x y : Reg) : Statement (.andVxVy x y) := ⟨formatR_fits _ _ _ _, by simp [patterns, patternOf]⟩
theorem xorVxVy (x y : Reg) : Statement (.xorVxVy x y) := ⟨formatR_fits _ _ _ _, by simp [patterns, patternOf]⟩
theorem addVxVy (x y : Reg) : Statement (.addVxVy x y) := ⟨formatR_fits _ _ _ _, by simp [patterns, patternOf]⟩
theorem subVxVy (x y : Reg) : Statement (.subVxVy x y) := ⟨formatR_fits _ _ _ _, by simp [patterns, patternOf]⟩
theorem shrVx (x y : Reg) : Statement (.shrVx x y) := ⟨formatR_fits _ _ _ _, by simp [patterns, patternOf]⟩
theorem subnVxVy (x y : Reg) : Statement (.subnVxVy x y) := ⟨formatR_fits _ _ _ _, by simp [patterns, patternOf]⟩
theorem shlVx (x y : Reg) : Statement (.shlVx x y) := ⟨formatR_fits _ _ _ _, by simp [patterns, patternOf]⟩
theorem sneVxVy (x y : Reg) : Statement (.sneVxVy x y) := ⟨formatR_fits _ _ _ _, by simp [patterns, patternOf]⟩
theorem ldIAddr (nnn : Addr12) : Statement (.ldIAddr nnn) := ⟨formatA_fits _ _, by simp [patterns, patternOf]⟩
theorem jpV0Addr (nnn : Addr12) : Statement (.jpV0Addr nnn) := ⟨formatA_fits _ _, by simp [patterns, patternOf]⟩
theorem rndVxKk (x : Reg) (kk : Byte) : Statement (.rndVxKk x kk) := ⟨formatI_fits _ _ _, by simp [patterns, patternOf]⟩
theorem drwVxVyN (x y : Reg) (n : Nibble) : Statement (.drwVxVyN x y n) := ⟨formatD_fits _ _ _ _, by simp [patterns, patternOf]⟩
theorem skpVx (x : Reg) : Statement (.skpVx x) := ⟨formatX_fits _ _ _, by simp [patterns, patternOf]⟩
theorem sknpVx (x : Reg) : Statement (.sknpVx x) := ⟨formatX_fits _ _ _, by simp [patterns, patternOf]⟩
theorem ldVxDt (x : Reg) : Statement (.ldVxDt x) := ⟨formatX_fits _ _ _, by simp [patterns, patternOf]⟩
theorem ldVxK (x : Reg) : Statement (.ldVxK x) := ⟨formatX_fits _ _ _, by simp [patterns, patternOf]⟩
theorem ldDtVx (x : Reg) : Statement (.ldDtVx x) := ⟨formatX_fits _ _ _, by simp [patterns, patternOf]⟩
theorem ldStVx (x : Reg) : Statement (.ldStVx x) := ⟨formatX_fits _ _ _, by simp [patterns, patternOf]⟩
theorem addIVx (x : Reg) : Statement (.addIVx x) := ⟨formatX_fits _ _ _, by simp [patterns, patternOf]⟩
theorem ldFVx (x : Reg) : Statement (.ldFVx x) := ⟨formatX_fits _ _ _, by simp [patterns, patternOf]⟩
theorem ldBVx (x : Reg) : Statement (.ldBVx x) := ⟨formatX_fits _ _ _, by simp [patterns, patternOf]⟩
theorem ldMemVx (x : Reg) : Statement (.ldMemVx x) := ⟨formatX_fits _ _ _, by simp [patterns, patternOf]⟩
theorem ldVxMem (x : Reg) : Statement (.ldVxMem x) := ⟨formatX_fits _ _ _, by simp [patterns, patternOf]⟩

end Sys2Proof.Laws.EncodesItsRow
end

