-- ==== Sys2Proof/Tests/Slice0.lean ====
section
/-! SUPPORT. The model's own tests: the checks of WellFormed.lean, every constructor's word, one step per instruction from the
vectors of 95_test_vectors.md (named at each test), and a witness for the hypotheses of every statement that has some. -/
namespace Sys2Proof.Tests
open Sys2Proof.Machine

/-! ## Helpers -/

/-- The reset state with some registers and `I` set. -/
def with_ (regs : List (Reg × Byte)) (index : Word) : State :=
  { regs.foldl (fun s p => s.setV p.1 p.2) State.reset with index := index }

/-- Bytes of memory set, from an address on. -/
def store (a : Nat) (bytes : List Byte) (s : State) : State := { s with mem := s.mem.writeAll a bytes }

/-- The one key set as pressed, beside those already down. -/
def press (k : Fin 16) (s : State) : State := { s with keys := s.keys.set k.val true k.isLt }

/-- One pixel lit. -/
def lit (r : Fin 32) (c : Fin 64) (s : State) : State := { s with fb := s.fb.set r c true }

/-- The state a step of the instruction word `w` answers, if it answers one that `p` holds of. -/
def ran (w : Nat) (s : State) (p : State → Bool) : Bool :=
  match step (s.withFetchWord 16 w) with
  | .next t => p t
  | _ => false

/-- As `ran`, for a step of the bytes already at `PC`. -/
def stepped (s : State) (p : State → Bool) : Bool :=
  match step s with
  | .next t => p t
  | _ => false

/-- The number of lit pixels in the rows and columns given. -/
def litAmong (fb : Framebuffer) (cells : List (Fin 32 × Fin 64)) : Nat := (cells.filter fun p => fb.get p.1 p.2).length

/-! ## Well-formedness: an ill-formed term for each check, and a well-formed one beside it -/

/-- R77, one word of each class of illegal words, and neighbours that are legal. -/
theorem test_legalWord_refuses :
    [0x0000, 0x0EE0, 0x5121, 0x8128, 0x812F, 0x9001, 0xE19F, 0xF175].all (fun w => !legalWord w) = true := by decide
theorem test_legalWord_accepts : [0x00E0, 0x5120, 0x812E, 0x9000, 0xE19E, 0xF165].all legalWord = true := by decide

/-- R196: 3584 bytes fit, 3585 do not. -/
theorem test_legalImage_refuses : legalImage (List.replicate 3585 0) = false := by
  rw [legalImage, List.length_replicate]; decide
theorem test_legalImage_accepts : legalImage (List.replicate 3584 0) = true := by
  rw [legalImage, List.length_replicate]; decide

/-- R78: the form an assembler emits. -/
theorem test_canonical_refuses : (Instr.shrVx 1 2).canonical = false ∧ (Instr.shlVx 1 2).canonical = false := by decide
theorem test_canonical_accepts : (Instr.shrVx 1 0).canonical = true ∧ (Instr.subVxVy 1 2).canonical = true := by decide

/-- R50, the canonical form of memory: a redundant entry, an entry out of order, one outside the space. -/
theorem test_memory_wf_refuses : Memory.wf [(0x300, 0)] = false ∧ Memory.wf [(0x301, 1), (0x300, 1)] = false ∧
    Memory.wf [(0x1000, 1)] = false := by decide
theorem test_memory_wf_accepts : Memory.wf [(0x000, 0), (0x300, 1), (0xFFF, 2)] = true := by decide

/-! ## Decoding: every constructor from a word written out from R71 and R75 (95_test_vectors.md 2.7) -/

theorem test_decode_control : decode 0x00E0 = some .cls ∧ decode 0x00EE = some .ret ∧ decode 0x1204 = some (.jpAddr 0x204) ∧
    decode 0x2FFF = some (.callAddr 0xFFF) ∧ decode 0xB123 = some (.jpV0Addr 0x123) := by decide
theorem test_decode_skips : decode 0x3A7F = some (.seVxKk 0xA 0x7F) ∧ decode 0x4000 = some (.sneVxKk 0 0) ∧
    decode 0x5AB0 = some (.seVxVy 0xA 0xB) ∧ decode 0x9AB0 = some (.sneVxVy 0xA 0xB) ∧ decode 0xE19E = some (.skpVx 1) ∧
    decode 0xE1A1 = some (.sknpVx 1) := by decide
theorem test_decode_immediate : decode 0x6F07 = some (.ldVxKk 0xF 7) ∧ decode 0x7001 = some (.addVxKk 0 1) ∧
    decode 0xC1FF = some (.rndVxKk 1 0xFF) := by decide
theorem test_decode_logic : decode 0x8AB0 = some (.ldVxVy 0xA 0xB) ∧ decode 0x8AB1 = some (.orVxVy 0xA 0xB) ∧
    decode 0x8AB2 = some (.andVxVy 0xA 0xB) ∧ decode 0x8AB3 = some (.xorVxVy 0xA 0xB) := by decide
theorem test_decode_arithmetic : decode 0x8AB4 = some (.addVxVy 0xA 0xB) ∧ decode 0x8AB5 = some (.subVxVy 0xA 0xB) ∧
    decode 0x8AB6 = some (.shrVx 0xA 0xB) ∧ decode 0x8AB7 = some (.subnVxVy 0xA 0xB) ∧
    decode 0x8ABE = some (.shlVx 0xA 0xB) := by decide
theorem test_decode_index_memory : decode 0xA123 = some (.ldIAddr 0x123) ∧ decode 0xF11E = some (.addIVx 1) ∧
    decode 0xF129 = some (.ldFVx 1) ∧ decode 0xF133 = some (.ldBVx 1) ∧ decode 0xF155 = some (.ldMemVx 1) ∧
    decode 0xF165 = some (.ldVxMem 1) := by decide
theorem test_decode_display_timers : decode 0xD12F = some (.drwVxVyN 1 2 15) ∧ decode 0xF107 = some (.ldVxDt 1) ∧
    decode 0xF10A = some (.ldVxK 1) ∧ decode 0xF115 = some (.ldDtVx 1) ∧ decode 0xF118 = some (.ldStVx 1) := by decide
/-- DE1 to DE7. -/
theorem test_decode_illegal :
    [0x0000, 0x00E1, 0x0123, 0x5121, 0x8128, 0x812D, 0x9001, 0xE1A0, 0xF000, 0xF285].all (fun w => (decode w).isNone) = true := by
  decide
/-- Byte order (R56): the bytes 12, 04 are JP 0x204; one byte is too short. -/
theorem test_decode_bytes : decodeBytes [0x12, 0x04, 0x99] = .ok (.jpAddr 0x204, [0x99]) ∧
    decodeBytes [0x12] = .error .tooShort ∧ decodeBytes [0x51, 0x21] = .error (.unsupportedOpcode 0x5121) := ⟨rfl, rfl, rfl⟩
theorem test_encode : encode (.jpAddr 0x204) = 0x1204 ∧ encode (.seVxKk 0xA 0x7F) = 0x3A7F ∧ encode (.subVxVy 0xA 0xB) = 0x8AB5 ∧
    encodeBytes (.drwVxVyN 1 2 15) = [0xD1, 0x2F] := by decide

/-! ## One step of each instruction -/

/-- CF1, CF3. -/
theorem test_jp : ran 0x1ABC State.reset (fun t => t.pc == 0xABC) = true := by decide
/-- CF5, CF6. -/
theorem test_ret : ran 0x00EE { State.reset with sp := 1, stack := State.reset.stack.set 0 0x204 }
    (fun t => t.pc == 0x204 && t.sp == 0 && t.stack[0] == 0x204) = true := by decide
theorem test_ret_underflow : ran 0x00EE State.reset
    (fun t => t.fault == some ⟨.boundsViolation .stackUnderflow, some 0x200, some 0x00EE, 0⟩ && t.pc == 0x200) = true := by decide
/-- CF8, CF9. -/
theorem test_call : ran 0x2345 { State.reset with sp := 15 } (fun t => t.stack[15] == 0x202 && t.sp == 16 && t.pc == 0x345) = true := by
  decide
theorem test_call_overflow : ran 0x2345 { State.reset with sp := 16 }
    (fun t => t.fault == some ⟨.boundsViolation .stackOverflow, some 0x200, some 0x2345, 16⟩) = true := by decide
/-- CF12 to CF21. -/
theorem test_se_imm : ran 0x332A (with_ [(3, 0x2A)] 0) (·.pc == 0x204) && ran 0x332A (with_ [(3, 0x2B)] 0) (·.pc == 0x202) = true := by
  decide
theorem test_sne_imm : ran 0x432A (with_ [(3, 0x2A)] 0) (·.pc == 0x202) && ran 0x432A State.reset (·.pc == 0x204) = true := by decide
theorem test_se_reg : ran 0x5120 (with_ [(1, 7), (2, 7)] 0) (·.pc == 0x204) && ran 0x5120 (with_ [(1, 7), (2, 8)] 0) (·.pc == 0x202) = true := by
  decide
theorem test_sne_reg : ran 0x9120 (with_ [(1, 7), (2, 8)] 0) (·.pc == 0x204) && ran 0x9330 (with_ [(3, 9)] 0) (·.pc == 0x202) = true := by
  decide
/-- CF23: no 12-bit mask. -/
theorem test_jp_v0 : ran 0xBFFF (with_ [(0, 0xFF)] 0) (·.pc == 0x10FE) = true := by decide

/-- A50, A51. -/
theorem test_ld_imm : ran 0x6F07 State.reset (fun t => t.getV VF == 7 && t.pc == 0x202) = true := by decide
/-- A52. -/
theorem test_ld_reg : ran 0x8120 (with_ [(2, 0x77)] 0) (fun t => t.getV 1 == 0x77 && t.getV 2 == 0x77) = true := by decide
/-- A53, A54, A55. -/
theorem test_or : ran 0x8121 (with_ [(1, 0xF0), (2, 0x0F), (VF, 0x55)] 0) (fun t => t.getV 1 == 0xFF && t.getV VF == 0x55) = true := by
  decide
theorem test_and : ran 0x8122 (with_ [(1, 0xF3), (2, 0x3C)] 0) (·.getV 1 == 0x30) = true := by decide
theorem test_xor : ran 0x8123 (with_ [(1, 0xFF), (2, 0x0F)] 0) (·.getV 1 == 0xF0) = true := by decide
/-- A57. -/
theorem test_add_imm : ran 0x7503 (with_ [(5, 0xFE), (VF, 9)] 0) (fun t => t.getV 5 == 1 && t.getV VF == 9) = true := by decide
/-- A1 (the source's S2), A30. -/
theorem test_add : ran 0x8124 (with_ [(1, 0xFF), (2, 1)] 0) (fun t => t.getV 1 == 0 && t.getV VF == 1) = true := by decide
theorem test_add_vf : ran 0x8F14 (with_ [(VF, 3), (1, 4)] 0) (fun t => t.getV VF == 0) = true := by decide
/-- A7 (the source's S3), A9. -/
theorem test_sub : ran 0x8125 (with_ [(1, 5), (2, 0xA)] 0) (fun t => t.getV 1 == 0xFB && t.getV VF == 0) = true := by decide
theorem test_sub_equal : ran 0x8125 (with_ [(1, 7), (2, 7)] 0) (fun t => t.getV 1 == 0 && t.getV VF == 1) = true := by decide
/-- A13, A38. -/
theorem test_subn : ran 0x8127 (with_ [(1, 0xA), (2, 5)] 0) (fun t => t.getV 1 == 0xFB && t.getV VF == 0) = true := by decide
theorem test_subn_vf : ran 0x8F17 (with_ [(VF, 5), (1, 3)] 0) (fun t => t.getV VF == 0) = true := by decide
/-- A17 (the source's S4), A21. -/
theorem test_shr : ran 0x8106 (with_ [(1, 3)] 0) (fun t => t.getV 1 == 1 && t.getV VF == 1) = true := by decide
theorem test_shr_ignores_y : ran 0x8126 (with_ [(1, 6), (2, 0xFF)] 0) (fun t => t.getV 1 == 3 && t.getV VF == 0 && t.getV 2 == 0xFF) = true := by
  decide
/-- A22, A26. -/
theorem test_shl : ran 0x810E (with_ [(1, 0x81)] 0) (fun t => t.getV 1 == 2 && t.getV VF == 1) = true := by decide
theorem test_shl_ignores_y : ran 0x812E (with_ [(1, 6), (2, 0xFF)] 0) (fun t => t.getV 1 == 0xC && t.getV VF == 0 && t.getV 2 == 0xFF) = true := by
  decide
/-- A60: the host's Step(0xB7) draws B7. -/
theorem test_rnd_step : (match applyOp (.step 0xB7) (State.reset.withFetchWord 16 0xC30F) with
    | .next t => t.getV 3 == 7 && t.draws == 1 && t.offered == none
    | _ => false) = true := by decide
/-- R125: RND takes one draw and writes no other register. -/
theorem test_rnd : ran 0xC30F (with_ [(2, 5), (VF, 9)] 0) (fun t => t.draws == 1 && t.getV 2 == 5 && t.getV VF == 9 && t.pc == 0x202) = true := by
  decide

/-- M2. -/
theorem test_ld_i : ran 0xAFFF State.reset (·.index == 0xFFF) = true := by decide
/-- M3, M5. -/
theorem test_add_i : ran 0xF21E (with_ [(2, 5)] 0xFFE) (·.index == 0x1003) = true := by decide
theorem test_add_i_overflow : ran 0xF21E (with_ [(2, 1)] 0xFFFF)
    (fun t => t.fault == some ⟨.boundsViolation .indexOverflow, some 0x200, some 0xF21E, 0x10000⟩ && t.index == 0xFFFF) = true := by decide
/-- M6, M7. -/
theorem test_ld_f : ran 0xF429 (with_ [(4, 0xFF)] 0) (·.index == 0x4FB) = true := by decide
/-- M11, M12. -/
theorem test_bcd : ran 0xF333 (with_ [(3, 199)] 0xFFD)
    (fun t => t.mem.read 0xFFD == 1 && t.mem.read 0xFFE == 9 && t.mem.read 0xFFF == 9) = true := by decide
theorem test_bcd_fault : ran 0xF333 (with_ [(3, 199)] 0xFFE)
    (fun t => t.fault == some ⟨.boundsViolation .memAddress, some 0x200, some 0xF333, 0x1000⟩ && t.mem.read 0xFFE == 0) = true := by decide
/-- M15, M17. -/
theorem test_ld_mem : ran 0xF255 (with_ [(0, 0x11), (1, 0x22), (2, 0x33), (3, 0x44)] 0x300)
    (fun t => t.mem.read 0x300 == 0x11 && t.mem.read 0x302 == 0x33 && t.mem.read 0x303 == 0 && t.index == 0x300) = true := by decide
theorem test_ld_mem_fault : ran 0xF155 (with_ [(0, 0xAB)] 0xFFF)
    (fun t => t.fault == some ⟨.boundsViolation .memAddress, some 0x200, some 0xF155, 0x1000⟩ && t.mem.read 0xFFF == 0) = true := by decide
/-- M19, M22. -/
theorem test_ld_regs : ran 0xF165 (store 0x300 [0xAA, 0xBB, 0xCC] (with_ [(2, 0x77)] 0x300))
    (fun t => t.getV 0 == 0xAA && t.getV 1 == 0xBB && t.getV 2 == 0x77 && t.index == 0x300) = true := by decide
theorem test_ld_regs_fault : ran 0xF165 (with_ [(0, 1), (1, 2)] 0xFFF)
    (fun t => t.fault == some ⟨.boundsViolation .memAddress, some 0x200, some 0xF165, 0x1000⟩ && t.getV 0 == 1) = true := by decide

/-- W1. -/
theorem test_cls : ran 0x00E0 (lit 3 5 (with_ [(VF, 7)] 0)) (fun t => !t.fb.get 3 5 && t.getV VF == 7 && !t.out.refresh) = true := by
  decide
/-- W4 (wrapping at both edges), W11. -/
theorem test_drw_wraps : ran 0xD012 (store 0x300 [0x81, 0xC0] (with_ [(0, 255), (1, 31)] 0x300))
    (fun t => litAmong t.fb [(31, 63), (31, 6), (0, 63), (0, 0)] == 4 && !t.fb.get 31 0 && t.getV VF == 0 && t.out.refresh) = true := by
  decide
theorem test_drw_no_rows : ran 0xD010 (with_ [(VF, 7)] 0x1234) (fun t => t.getV VF == 0 && !t.out.refresh && t.fault == none) = true := by
  decide

/-- K1, K3. -/
theorem test_skp : ran 0xE29E (press 10 (with_ [(2, 0xA)] 0)) (·.pc == 0x204) = true := by decide
theorem test_skp_fault : ran 0xE29E (press 0 (with_ [(2, 0x10)] 0))
    (fun t => t.fault == some ⟨.boundsViolation .keyIndex, some 0x200, some 0xE29E, 0x10⟩) = true := by decide
/-- K4, K5. -/
theorem test_sknp : ran 0xE2A1 (press 10 (with_ [(2, 0xA)] 0)) (·.pc == 0x202) && ran 0xE2A1 (with_ [(2, 0xA)] 0) (·.pc == 0x204) = true := by
  decide
/-- K7, K8. -/
theorem test_key : ran 0xF50A (press 7 (press 3 { State.reset with dt := 5 })) (fun t => t.getV 5 == 3 && t.dt == 4 && t.pc == 0x202) = true := by
  decide
theorem test_key_hold : ran 0xF50A { State.reset with dt := 5, st := 1 }
    (fun t => t.out == ⟨.hold, false, false⟩ && t.pc == 0x200 && t.dt == 5 && t.st == 1) = true := by decide
/-- T1. -/
theorem test_ld_dt_read : ran 0xF307 { State.reset with dt := 0x10 } (fun t => t.getV 3 == 0x10 && t.dt == 0xF) = true := by decide
/-- T3, T5. -/
theorem test_ld_dt : ran 0xF115 (with_ [(1, 5)] 0) (·.dt == 4) = true := by decide
theorem test_ld_dt_zero : ran 0xF115 { with_ [] 0 with dt := 9 } (·.dt == 0) = true := by decide
/-- T9, T8. -/
theorem test_ld_st : ran 0xF118 (with_ [(1, 1)] 0) (fun t => t.st == 0 && t.out.beep) = true := by decide
theorem test_ld_st_cancel : ran 0xF118 { with_ [] 0 with st := 1 } (fun t => t.st == 0 && !t.out.beep) = true := by decide
/-- CF26, CF27: 4094 is the last address fetched from. -/
theorem test_fetch_4094 : ran 0x6000 { State.reset with pc := 0xFFE } (·.pc == 0x1000) = true := by decide
theorem test_fetch_4095 : stepped { State.reset with pc := 0xFFF }
    (fun t => t.fault == some ⟨.boundsViolation .pcOutOfRange, some 0xFFF, none, 0xFFF⟩) = true := by decide
/-- Z2, and DE3. -/
theorem test_reset_step : stepped State.reset (fun t => t.fault == some ⟨.unsupportedOpcode, some 0x200, some 0, 0⟩) = true := by decide
theorem test_illegal : ran 0x5121 State.reset (fun t => t.fault == some ⟨.unsupportedOpcode, some 0x200, some 0x5121, 0x5121⟩) = true := by
  decide
/-- The words of the opcode table as the host numbers them, run as the first instruction after reset. -/
theorem test_table_word : decodeTableWord 16 0x1204 = some (.jpAddr 0x204) ∧ decodeTableWord 16 0x5121 = none ∧
    decodeTableWord 16 0xF165 = some (.ldVxMem 1) := by decide
theorem test_first_instruction : step (State.reset.withFetchWord 16 0xA123) = exec (.ldIAddr 0x123) (State.reset.withFetchWord 16 0xA123) :=
  rfl
/-- P8: an odd PC. -/
theorem test_odd_pc : stepped (store 0x203 [0x61, 0x2A] { State.reset with pc := 0x203 }) (fun t => t.getV 1 == 0x2A && t.pc == 0x205) = true := by
  decide

/-! ## Witnesses: for each statement with hypotheses, a state and operands that meet them all, at the ends of their ranges -/

/-- The state a step answers (the state itself where it answers none). -/
def next (s : State) : State :=
  match step s with
  | .next t => t
  | _ => s

/-- The state an instruction answers. -/
def after (i : Instr) (s : State) : State :=
  match exec i s with
  | .next t => t
  | _ => s

/-- A word at 0x200 of the reset state. -/
def at_ (w : Nat) : State := State.reset.withFetchWord 16 w

/-- A halted machine. -/
def haltedState : State := { State.reset with fault := some ⟨.unsupportedOpcode, some 0x200, some 0, 0⟩ }

theorem test_witness_encode_of_decode : decode 0x8AB6 = some (.shrVx 0xA 0xB) := by decide
theorem test_witness_step_runs : running (at_ 0x1ABC) ∧ (at_ 0x1ABC).pc.toNat ≤ 4094 ∧
    decode (fetchWord (at_ 0x1ABC)) = some (.jpAddr 0xABC) := ⟨rfl, by decide, by decide⟩
/-- The last address an instruction stands at. -/
theorem test_witness_step_runs_top : running (State.withFetchWord { State.reset with pc := 4094 } 16 0x00E0) ∧
    (State.withFetchWord { State.reset with pc := 4094 } 16 0x00E0).pc.toNat ≤ 4094 ∧
    decode (fetchWord (State.withFetchWord { State.reset with pc := 4094 } 16 0x00E0)) = some .cls := ⟨rfl, by decide, by decide⟩
theorem test_witness_fetch_last : ({ State.reset with pc := 4094 } : State).pc.toNat ≤ 4094 := by decide
theorem test_witness_fetch_out : running { State.reset with pc := 4095 } ∧
    4094 < ({ State.reset with pc := 4095 } : State).pc.toNat := ⟨rfl, by decide⟩
theorem test_witness_illegal : running (at_ 0x5121) ∧ (at_ 0x5121).pc.toNat ≤ 4094 ∧ legalWord (fetchWord (at_ 0x5121)) = false :=
  ⟨rfl, by decide, by decide⟩
theorem test_witness_halted : haltedState.fault = some ⟨.unsupportedOpcode, some 0x200, some 0, 0⟩ ∧ ([0, 255] : List Byte) ≠ [] :=
  ⟨rfl, by decide⟩
theorem test_witness_latch : haltedState.fault = some ⟨.unsupportedOpcode, some 0x200, some 0, 0⟩ ∧
    (∀ rom, HostOp.step 9 ≠ .reset rom) ∧ applyOp (.step 9) haltedState = .next (halt haltedState) := ⟨rfl, nofun, rfl⟩
theorem test_witness_latch_keys : (∀ rom, HostOp.keyUpdate haltedState.keys ≠ .reset rom) ∧
    applyOp (.keyUpdate haltedState.keys) haltedState = .next haltedState := ⟨nofun, rfl⟩
theorem test_witness_faulting : running State.reset ∧ step State.reset = .next (next State.reset) ∧ ¬ running (next State.reset) :=
  ⟨rfl, rfl, nofun⟩

/-- One faulting step of each row of R173's table, each with the record its row gives. -/
theorem test_witness_record_1 : running (at_ 0x0000) ∧ step (at_ 0x0000) = .next (next (at_ 0x0000)) ∧
    (next (at_ 0x0000)).fault = some ⟨.unsupportedOpcode, some 0x200, some 0, 0⟩ := ⟨rfl, rfl, by decide⟩
theorem test_witness_record_2 : running { State.reset with pc := 4095 } ∧
    (next { State.reset with pc := 4095 }).fault = some ⟨.boundsViolation .pcOutOfRange, some 4095, none, 4095⟩ := ⟨rfl, by decide⟩
theorem test_witness_record_3 : running { at_ 0xD012 with index := 0xFFF } ∧
    (next { at_ 0xD012 with index := 0xFFF }).fault =
      some ⟨.boundsViolation .memAddress, some 0x200, some 0xD012, 0x1000⟩ := ⟨rfl, by decide⟩
theorem test_witness_record_4 : running { at_ 0x2345 with sp := 16 } ∧
    (next { at_ 0x2345 with sp := 16 }).fault = some ⟨.boundsViolation .stackOverflow, some 0x200, some 0x2345, 16⟩ := ⟨rfl, by decide⟩
theorem test_witness_record_5 : running (at_ 0x00EE) ∧
    (next (at_ 0x00EE)).fault = some ⟨.boundsViolation .stackUnderflow, some 0x200, some 0x00EE, 0⟩ := ⟨rfl, by decide⟩
theorem test_witness_record_6 : running { (at_ 0xF21E).setV 2 1 with index := 0xFFFF } ∧
    (next { (at_ 0xF21E).setV 2 1 with index := 0xFFFF }).fault =
      some ⟨.boundsViolation .indexOverflow, some 0x200, some 0xF21E, 0x10000⟩ := ⟨rfl, by decide⟩
theorem test_witness_record_7 : running ((at_ 0xE2A1).setV 2 16) ∧
    (next ((at_ 0xE2A1).setV 2 16)).fault = some ⟨.boundsViolation .keyIndex, some 0x200, some 0xE2A1, 16⟩ := ⟨rfl, by decide⟩
/-- The codes of R173's rows, 8 being the reset's. -/
theorem test_codes : [FaultKind.unsupportedOpcode, .boundsViolation .pcOutOfRange, .boundsViolation .memAddress,
    .boundsViolation .stackOverflow, .boundsViolation .stackUnderflow, .boundsViolation .indexOverflow,
    .boundsViolation .keyIndex, .resourceLoadFailure].map FaultKind.code = [1, 2, 3, 4, 5, 6, 7, 8] := rfl

/-- Each outcome of R90 occurs; the first also witnesses the completed-step clauses, the others the clauses on steps that do not
complete. -/
theorem test_witness_done : step (at_ 0x00E0) = .next (next (at_ 0x00E0)) ∧ (next (at_ 0x00E0)).out.outcome = .done ∧
    decode (fetchWord (at_ 0x00E0)) = some .cls := ⟨rfl, by decide, by decide⟩
theorem test_witness_hold : step (at_ 0xF50A) = .next (next (at_ 0xF50A)) ∧ (next (at_ 0xF50A)).out.outcome = .hold ∧
    awaitingKey (at_ 0xF50A) = true := ⟨rfl, by decide, by decide⟩
theorem test_witness_fault : step (at_ 0x0000) = .next (next (at_ 0x0000)) ∧ (next (at_ 0x0000)).out.outcome = .fault := ⟨rfl, by decide⟩
theorem test_witness_halted_step : step haltedState = .next (next haltedState) ∧ (next haltedState).out.outcome = .halted ∧
    ¬ running haltedState := ⟨rfl, by decide, nofun⟩
/-- The tick at its ends: ST = 1 beeps (T12). -/
theorem test_witness_beep : (next { at_ 0x6000 with dt := 1, st := 1 }).out = ⟨.done, true, false⟩ ∧
    (next { at_ 0x6000 with dt := 1, st := 1 }).dt = 0 := by decide
/-- The three ways PC moves. -/
theorem test_witness_pc : (next (at_ 0x6000)).pc = 0x202 ∧ (next (at_ 0x3000)).pc = 0x204 ∧ (next (at_ 0x1ABC)).pc = 0xABC := by decide
theorem test_witness_register : exec (.addVxKk 1 5) State.reset = .next (after (.addVxKk 1 5) State.reset) ∧
    (Instr.addVxKk 1 5).mayWriteReg 2 = false ∧ (Instr.addVxKk 1 5).mayWriteReg VF = false := ⟨rfl, by decide, by decide⟩
theorem test_witness_flag : exec (.addVxVy 1 2) State.reset = .next (after (.addVxVy 1 2) State.reset) ∧
    (after (.addVxVy 1 2) State.reset).out.outcome = .done ∧ (Instr.addVxVy 1 2).writesFlag := ⟨rfl, by decide, trivial⟩
theorem test_witness_rest : exec (.ldVxKk 1 5) State.reset = .next (after (.ldVxKk 1 5) State.reset) ∧
    ¬ (Instr.ldVxKk 1 5).writesIndex ∧ ¬ (Instr.ldVxKk 1 5).movesStack ∧ ¬ (Instr.ldVxKk 1 5).storesMem ∧
    ¬ (Instr.ldVxKk 1 5).writesFb := ⟨rfl, id, id, id, id⟩
theorem test_witness_key_readers : ¬ (Instr.addVxKk 1 5).readsKeys ∧
    exec (.addVxKk 1 5) State.reset = .next (after (.addVxKk 1 5) State.reset) := ⟨id, rfl⟩
theorem test_witness_refresh : (next { at_ 0xD001 with index := 0x000 }).out = ⟨.done, false, true⟩ := by decide
theorem test_witness_ended : endedWell (at_ 0x1200) := ⟨rfl, by decide, 0x200, by decide, by decide⟩

theorem test_witness_canonical : MemoryCanonical (at_ 0xF055) ∧ step (at_ 0xF055) = .next (next (at_ 0xF055)) := ⟨by unfold MemoryCanonical; decide, rfl⟩
theorem test_witness_bounded : PcBounded { at_ 0x00EE with pc := 0x10FE, stack := Vector.replicate 16 0x1000 } :=
  ⟨by decide, fun k => by simp⟩
theorem test_witness_reachable : (match runOps [.reset [0xF3, 0x0A], .step 1, .keyUpdate (Vector.replicate 16 true), .step 2] State.reset with
    | .next t => t.pc == 0x202 && t.mem == [(0x200, 0xF3), (0x201, 0x0A)]
    | _ => false) = true := by decide
theorem test_witness_host_op : MemoryCanonical State.reset ∧ PcBounded State.reset ∧
    applyOp (.keyUpdate (Vector.replicate 16 true)) State.reset = .next (keyUpdate (Vector.replicate 16 true) State.reset) :=
  ⟨rfl, ⟨by decide, fun k => by simp [State.reset]⟩, rfl⟩
/-- The two sources of RND's byte; a host step at an RND; an instruction that is none. -/
theorem test_witness_draw : ({ State.reset with offered := some 0xB7 } : State).offered = some 0xB7 ∧ State.reset.offered = none := ⟨rfl, rfl⟩
theorem test_witness_rnd_step : running (at_ 0xC30F) ∧ (at_ 0xC30F).pc.toNat ≤ 4094 ∧
    decode (fetchWord (at_ 0xC30F)) = some (.rndVxKk 3 0x0F) := ⟨rfl, by decide, by decide⟩
theorem test_witness_no_rnd : (∀ x kk, Instr.cls ≠ .rndVxKk x kk) ∧ exec .cls State.reset = .next (after .cls State.reset) := ⟨nofun, rfl⟩

/-- The stack's ends: 15 entries before a CALL, 1 and 16 before a RET; 16 before a CALL that overflows, none before a RET that
underflows. -/
theorem test_witness_call : ({ State.reset with sp := 15 } : State).sp.val < 16 := by decide
theorem test_witness_ret_one : ({ State.reset with sp := 1 } : State).sp.val = (0 : Fin 16).val + 1 := by decide
theorem test_witness_ret_full : ({ State.reset with sp := 16 } : State).sp.val = (15 : Fin 16).val + 1 := by decide
theorem test_witness_stack_ends : ({ State.reset with sp := 16 } : State).sp.val = 16 ∧ State.reset.sp.val = 0 := by decide
theorem test_witness_not_vf : (0xE : Reg) ≠ VF := by decide

/-- I + V[x] at 0xFFFF and at 0x10000. -/
theorem test_witness_add_i : (with_ [(2, 0xFF)] 0xFF00).index.toNat + ((with_ [(2, 0xFF)] 0xFF00).getV 2).toNat = 0xFFFF ∧
    0xFFFF < (with_ [(2, 1)] 0xFFFF).index.toNat + ((with_ [(2, 1)] 0xFFFF).getV 2).toNat := by decide
/-- The last legal I, and the first illegal one, of each memory instruction. -/
theorem test_witness_bcd : (with_ [] 0xFFD).index.toNat + 2 ≤ 0xFFF ∧ 0xFFF < (with_ [] 0xFFE).index.toNat + 2 := by decide
theorem test_witness_block : (with_ [] 0xFF0).index.toNat + (15 : Reg).toNat ≤ 0xFFF ∧
    0xFFF < (with_ [] 0xFF1).index.toNat + (15 : Reg).toNat ∧ (with_ [] 0xFFF).index.toNat + (0 : Reg).toNat ≤ 0xFFF ∧
    0xFFF < (with_ [] 0x1000).index.toNat + (0 : Reg).toNat := by decide
theorem test_witness_rows : (15 : Nibble) ≠ 0 ∧ (with_ [] 0xFF1).index.toNat + ((15 : Nibble).toNat - 1) ≤ 0xFFF ∧
    0xFFF < (with_ [] 0xFF2).index.toNat + ((15 : Nibble).toNat - 1) ∧ (1 : Nibble) ≠ 0 ∧
    0xFFF < (with_ [] 0x1000).index.toNat + ((1 : Nibble).toNat - 1) := by decide
/-- A DRW of no row with I out of range meets the hypothesis too. -/
theorem test_witness_no_rows : (0 : Nibble) = 0 ∨ (with_ [] 0xFFFF).index.toNat + ((0 : Nibble).toNat - 1) ≤ 0xFFF := .inl rfl
theorem test_witness_round_trip : (with_ [(0, 0xDE), (1, 0xAD)] 0xFFE).index.toNat + (1 : Reg).toNat ≤ 0xFFF ∧
    exec (.ldMemVx 1) (with_ [(0, 0xDE), (1, 0xAD)] 0xFFE) = .next (after (.ldMemVx 1) (with_ [(0, 0xDE), (1, 0xAD)] 0xFFE)) ∧
    KeepsMem (after (.ldMemVx 1) (with_ [(0, 0xDE), (1, 0xAD)] 0xFFE))
      ((after (.ldMemVx 1) (with_ [(0, 0xDE), (1, 0xAD)] 0xFFE)).setV 0 0) ∧
    ((after (.ldMemVx 1) (with_ [(0, 0xDE), (1, 0xAD)] 0xFFE)).setV 0 0).index =
      (after (.ldMemVx 1) (with_ [(0, 0xDE), (1, 0xAD)] 0xFFE)).index := ⟨by decide, rfl, fun _ => rfl, rfl⟩
/-- P7's store over the next word. -/
theorem test_witness_self_modify : 1 ≤ (1 : Reg).toNat ∧ (with_ [(0, 0x12), (1, 0x0A)] 0x202).index = State.reset.pc + 2 ∧
    (with_ [(0, 0x12), (1, 0x0A)] 0x202).index.toNat + (1 : Reg).toNat ≤ 0xFFF ∧
    exec (.ldMemVx 1) (with_ [(0, 0x12), (1, 0x0A)] 0x202) = .next (after (.ldMemVx 1) (with_ [(0, 0x12), (1, 0x0A)] 0x202)) ∧
    fetchWord (after (.ldMemVx 1) (with_ [(0, 0x12), (1, 0x0A)] 0x202)) = 0x120A := ⟨by decide, by decide, by decide, rfl, by decide⟩

/-- The last PC with a next word; the bytes of LD B,Vx, and of an LD [I],V0 that reaches the second byte of the next word only. -/
theorem test_witness_next_word_last : ({ State.reset with pc := 4092 } : State).pc.toNat ≤ 4092 := by decide
theorem test_witness_self_modify_bcd : (with_ [(3, 157)] 0x202).pc.toNat ≤ 4092 ∧ (with_ [(3, 157)] 0x202).index.toNat + 2 ≤ 0xFFF ∧
    exec (.ldBVx 3) (with_ [(3, 157)] 0x202) = .next (after (.ldBVx 3) (with_ [(3, 157)] 0x202)) ∧
    fetchWord (after (.ldBVx 3) (with_ [(3, 157)] 0x202)) = 0x0105 := ⟨by decide, by decide, rfl, by decide⟩
theorem test_witness_self_modify_half : (with_ [(0, 0xE0)] 0x203).pc.toNat ≤ 4092 ∧
    (with_ [(0, 0xE0)] 0x203).index.toNat + (0 : Reg).toNat ≤ 0xFFF ∧
    exec (.ldMemVx 0) (with_ [(0, 0xE0)] 0x203) = .next (after (.ldMemVx 0) (with_ [(0, 0xE0)] 0x203)) ∧
    fetchWord (after (.ldMemVx 0) (with_ [(0, 0xE0)] 0x203)) = 0x00E0 := ⟨by decide, by decide, rfl, by decide⟩

/-- A sprite of 15 rows, the most a DRW has; a set bit; a pixel it covers, which collides once lit. -/
theorem test_witness_sprite : (List.replicate 15 (0x80 : Byte)).length ≤ 15 := by decide
theorem test_witness_bit_set : SomeBitSet [0x00, 0x01] := ⟨1, 7, by decide, by decide, by decide⟩
theorem test_witness_covered : Covered 60 31 [0x00, 0x01] 0 3 := ⟨1, 7, by decide, by decide, by decide, by decide, by decide⟩
theorem test_witness_collides : Collides 60 31 [0x00, 0x01] (lit 0 3 State.reset).fb := ⟨0, 3, test_witness_covered, by decide⟩
theorem test_witness_not_collides : ¬ Collides 60 31 [0x00, 0x01] State.reset.fb :=
  fun ⟨r, c, _, h⟩ => absurd h (by rw [show State.reset.fb.get r c = false from Framebuffer.get_clear r c]; decide)
/-- Log 16: where every covered pixel was lit before the first draw, the second does not collide (R144). -/
theorem test_second_draw_no_collision : (draw 0 0 [0x80] (lit 0 0 State.reset).fb).collision = true ∧
    (draw 0 0 [0x80] (draw 0 0 [0x80] (lit 0 0 State.reset).fb).fb).collision = false := by decide
theorem test_witness_clear : (lit 0 0 State.reset).fb ≠ Framebuffer.clear ∧ State.reset.fb = Framebuffer.clear := by
  refine ⟨fun h => ?_, rfl⟩
  have := congrArg (fun f => Framebuffer.get f 0 0) h
  revert this
  decide

/-- Key codes at 15 and 16; the one highest key; the lowest of two; none. -/
theorem test_witness_key_code : ((with_ [(2, 15)] 0).getV 2).toNat = (15 : Fin 16).val ∧ 15 < ((with_ [(2, 16)] 0).getV 2).toNat := by decide
theorem test_witness_key_lowest : (press 15 (press 0 State.reset)).key 0 = true ∧
    ∀ j : Fin 16, j < 0 → (press 15 (press 0 State.reset)).key j = false := by decide
theorem test_witness_key_highest : (press 15 State.reset).key 15 = true ∧
    ∀ j : Fin 16, j < 15 → (press 15 State.reset).key j = false := by decide
theorem test_witness_no_key : ∀ k : Fin 16, State.reset.key k = false := by decide

/-- The longest image, one byte too many, and the addresses beside an image of two bytes. -/
theorem test_witness_image : (List.replicate 3584 (0 : Byte)).length ≤ 3584 ∧ 3584 < (List.replicate 3585 (0 : Byte)).length := by
  rw [List.length_replicate, List.length_replicate]; decide
theorem test_witness_image_outside : (0x1FF < 0x200 ∨ 0x200 + ([0x12, 0x04] : List Byte).length ≤ 0x1FF) ∧
    (0x202 < 0x200 ∨ 0x200 + ([0x12, 0x04] : List Byte).length ≤ 0x202) ∧ 1 < ([0x12, 0x04] : List Byte).length := by decide
/-- Z1: the image stands at 0x200, the font at 0. -/
theorem test_reset_image : (match resetWith [0x00, 0xE0, 0x12, 0x04] State.reset with
    | .next t => t.mem.read 0x201 == 0xE0 && t.mem.read 0x203 == 0x04 && t.mem.read 0x204 == 0 && t.mem.read 0x4B == 0xF0
    | _ => false) = true := by decide
/-- Log 2: a second Reset does not repeat the draws of the first run. -/
theorem test_reset_keeps_draws : (match resetWith [] { State.reset with draws := 7, dt := 9 } with
    | .next t => t.draws == 7 && t.dt == 0
    | _ => false) = true := by decide

end Sys2Proof.Tests
end

section
/-! ## A halted machine (R98) -/
namespace Sys2Proof.Machine

theorem step_of_halted {s : State} {r : FaultRecord} (hs : s.fault = some r) : step s = .next (halt s) := by
  rw [step, hs]

/-- The byte the host hands a halted machine's step is put back with the field that held it. -/
theorem stepWith_of_halted {s : State} {r : FaultRecord} (rnd : Byte) (hs : s.fault = some r) :
    stepWith rnd s = .next (halt s) :=
  stepWith_next.2 ⟨_, step_of_halted (r := r) hs, rfl⟩

@[simp] theorem halt_halt (s : State) : halt (halt s) = halt s := rfl

theorem runOps_cons_of_next {op : HostOp} {s t : State} (ops : List HostOp) (h : applyOp op s = .next t) :
    runOps (op :: ops) s = runOps ops t := by
  rw [runOps, h]

/-- The first halted step reaches a state that every further one keeps. -/
theorem runOps_steps_of_halted {s : State} {r : FaultRecord} (rnd : Byte) (rnds : List Byte) (hs : s.fault = some r) :
    runOps ((rnd :: rnds).map .step) s = .next (halt s) := by
  induction rnds generalizing rnd s with
  | nil => exact runOps_cons_of_next [] (stepWith_of_halted rnd hs)
  | cons rnd' rest ih =>
    calc runOps ((rnd :: rnd' :: rest).map .step) s
      _ = runOps ((rnd' :: rest).map .step) (halt s) := runOps_cons_of_next _ (stepWith_of_halted rnd hs)
      _ = .next (halt (halt s)) := ih rnd' hs
      _ = .next (halt s) := by rw [halt_halt]

theorem applyOp_keeps_record {s t : State} {r : FaultRecord} {op : HostOp} (hs : s.fault = some r)
    (hop : ∀ rom, op ≠ .reset rom) (ht : applyOp op s = .next t) : t.fault = some r := by
  cases op with
  | reset rom => exact absurd rfl (hop rom)
  | step rnd =>
    obtain rfl : halt s = t := Host.Outcome.next.inj ((stepWith_of_halted rnd hs).symm.trans ht)
    rw [halt_fault, hs]
  | keyUpdate keys =>
    obtain rfl : keyUpdate keys s = t := Host.Outcome.next.inj ht
    rw [keyUpdate_fault, hs]

/-- Settles O9: one halted step is `halt`, which a second leaves as it is, and of the host operations only a reset writes
the latch. -/
theorem haltedUntilReset : Obligations.HaltedUntilReset := by
  refine ⟨fun s r rnds hs hne => ?_, fun s t r op => applyOp_keeps_record⟩
  cases rnds with
  | nil => exact absurd rfl hne
  | cons rnd rest => exact runOps_steps_of_halted rnd rest hs

end Sys2Proof.Machine
end

section
/-! ## JP addr and the four comparisons (R102, R104 to R107) -/
namespace Sys2Proof.Machine

/-! Each of these instructions completes with an effect that leaves the state as it was; only its directive is its own. -/

theorem exec_jpAddr (nnn : Addr12) (s : State) :
    exec (.jpAddr nnn) s = .next (finish ⟨s, .jump (zext16 nnn), false⟩) := rfl

theorem exec_seVxKk (x : Reg) (kk : Byte) (s : State) :
    exec (.seVxKk x kk) s = .next (finish ⟨s, if s.getV x == kk then .skip else .next, false⟩) := rfl

theorem exec_sneVxKk (x : Reg) (kk : Byte) (s : State) :
    exec (.sneVxKk x kk) s = .next (finish ⟨s, if s.getV x != kk then .skip else .next, false⟩) := rfl

theorem exec_seVxVy (x y : Reg) (s : State) :
    exec (.seVxVy x y) s = .next (finish ⟨s, if s.getV x == s.getV y then .skip else .next, false⟩) := rfl

theorem exec_sneVxVy (x y : Reg) (s : State) :
    exec (.sneVxVy x y) s = .next (finish ⟨s, if s.getV x != s.getV y then .skip else .next, false⟩) := rfl

/-- `Skip` adds 4 and `Next` adds 2 (R96), whichever condition `p` the tested Boolean `c` computes. -/
theorem target_skip_or_next {c : Bool} {p : Prop} [Decidable p] (hc : c = true ↔ p) (pc : Word) :
    (if c then Directive.skip else .next).target pc = if p then pc + 4 else pc + 2 := by
  by_cases hp : p
  · rw [if_pos (hc.2 hp), if_pos hp]
    rfl
  · rw [if_neg (mt hc.1 hp), if_neg hp]
    rfl

/-- The frame of a skip instruction where it completes. -/
theorem writesPcOnly_of_skip_or_next {i : Instr} {s : State} {c : Bool} {p : Prop} [Decidable p] (hc : c = true ↔ p)
    (h : exec i s = .next (finish ⟨s, if c then .skip else .next, false⟩)) :
    ∃ t, exec i s = .next t ∧ WritesPcOnly (if p then s.pc + 4 else s.pc + 2) s t := by
  refine ⟨_, h, ?_⟩
  rw [← target_skip_or_next hc]
  exact writesPcOnly_finish s _

/-- Settles O27: the effect writes nothing, and its directive's target is the zero-extended address. -/
theorem jumpGoesToTheAddress : Obligations.JumpGoesToTheAddress := fun nnn s =>
  ⟨_, exec_jpAddr nnn s, zext16_toNat nnn, writesPcOnly_finish s _⟩

/-- Settles O32: each of the four is a skip whose Boolean test computes the equality of the bytes, or its negation. -/
theorem comparesSkipOrNot : Obligations.ComparesSkipOrNot := fun x y kk s =>
  ⟨writesPcOnly_of_skip_or_next beq_iff_eq (exec_seVxKk x kk s),
    writesPcOnly_of_skip_or_next bne_iff_ne (exec_sneVxKk x kk s),
    writesPcOnly_of_skip_or_next beq_iff_eq (exec_seVxVy x y s),
    writesPcOnly_of_skip_or_next bne_iff_ne (exec_sneVxVy x y s)⟩

end Sys2Proof.Machine
end

section
/-! ## The register load, arithmetic, logic and shift instructions (R111 to R122, R153) -/
namespace Sys2Proof.Machine

/-! Each of these instructions completes with `Next`, and its effect writes one register, or one register and then the flag. -/

theorem exec_ldVxKk (x : Reg) (kk : Byte) (s : State) :
    exec (.ldVxKk x kk) s = .next (finish ⟨s.setV x kk, .next, false⟩) := rfl

theorem exec_ldVxVy (x y : Reg) (s : State) :
    exec (.ldVxVy x y) s = .next (finish ⟨s.setV x (s.getV y), .next, false⟩) := rfl

theorem exec_ldVxDt (x : Reg) (s : State) :
    exec (.ldVxDt x) s = .next (finish ⟨s.setV x s.dt, .next, false⟩) := rfl

theorem exec_orVxVy (x y : Reg) (s : State) :
    exec (.orVxVy x y) s = .next (finish ⟨s.setV x (s.getV x ||| s.getV y), .next, false⟩) := rfl

theorem exec_andVxVy (x y : Reg) (s : State) :
    exec (.andVxVy x y) s = .next (finish ⟨s.setV x (s.getV x &&& s.getV y), .next, false⟩) := rfl

theorem exec_xorVxVy (x y : Reg) (s : State) :
    exec (.xorVxVy x y) s = .next (finish ⟨s.setV x (s.getV x ^^^ s.getV y), .next, false⟩) := rfl

theorem exec_addVxKk (x : Reg) (kk : Byte) (s : State) :
    exec (.addVxKk x kk) s = .next (finish ⟨s.setV x (s.getV x + kk), .next, false⟩) := rfl

theorem exec_addVxVy (x y : Reg) (s : State) :
    exec (.addVxVy x y) s = .next (finish
      ⟨s.setResultFlag x (s.getV x + s.getV y) (carryOut (s.getV x) (s.getV y)), .next, false⟩) := rfl

theorem exec_subVxVy (x y : Reg) (s : State) :
    exec (.subVxVy x y) s = .next (finish
      ⟨s.setResultFlag x (s.getV x - s.getV y) (noBorrow (s.getV x) (s.getV y)), .next, false⟩) := rfl

theorem exec_subnVxVy (x y : Reg) (s : State) :
    exec (.subnVxVy x y) s = .next (finish
      ⟨s.setResultFlag x (s.getV y - s.getV x) (noBorrow (s.getV y) (s.getV x)), .next, false⟩) := rfl

theorem exec_shrVx (x y : Reg) (s : State) :
    exec (.shrVx x y) s = .next (finish ⟨s.setResultFlag x (s.getV x >>> 1) (lowBit (s.getV x)), .next, false⟩) := rfl

theorem exec_shlVx (x y : Reg) (s : State) :
    exec (.shlVx x y) s = .next (finish ⟨s.setResultFlag x (s.getV x <<< 1) (highBit (s.getV x)), .next, false⟩) := rfl

/-! ### The two shapes of effect -/

/-- The end of a step writes no register. -/
@[simp] theorem getV_finish (e : Effect) (r : Reg) : (finish e).getV r = e.state.getV r := rfl

theorem assigns_of_exec {i : Instr} {s : State} {x : Reg} {b : Byte}
    (h : exec i s = .next (finish ⟨s.setV x b, .next, false⟩)) :
    ∃ t, exec i s = .next t ∧ (∀ r, t.getV r = if r = x then b else s.getV r) ∧ WritesRegsOnly s t ∧ KeepsDraws s t :=
  ⟨_, h, fun r => by rw [getV_finish, getV_setV], writesRegsOnly_finish rfl, rfl⟩

/-- `assigns_of_exec` with the destination apart from the other registers. -/
theorem writesResult_of_exec {i : Instr} {s : State} {x : Reg} {b : Byte}
    (h : exec i s = .next (finish ⟨s.setV x b, .next, false⟩)) :
    ∃ t, exec i s = .next t ∧ t.getV x = b ∧ (∀ r, r ≠ x → t.getV r = s.getV r) ∧ WritesRegsOnly s t ∧ KeepsDraws s t := by
  obtain ⟨t, ht, hv, frame⟩ := assigns_of_exec h
  exact ⟨t, ht, by rw [hv, if_pos rfl], fun r hr => by rw [hv, if_neg hr], frame⟩

/-- The flag is written last, so it is what VF holds even with `x = F` (R122, D8). -/
theorem writesResultAndFlag_of_exec {i : Instr} {s : State} {x : Reg} {b : Byte} {c : Bool}
    (h : exec i s = .next (finish ⟨s.setResultFlag x b c, .next, false⟩)) :
    ∃ t, exec i s = .next t ∧ (x ≠ VF → t.getV x = b) ∧ t.getV VF = flagByte c ∧
      (∀ r, r ≠ x → r ≠ VF → t.getV r = s.getV r) ∧ WritesRegsOnly s t ∧ KeepsDraws s t := by
  refine ⟨_, h, fun hx => ?_, ?_, fun r hr hVF => ?_, writesRegsOnly_finish rfl, rfl⟩
  · rw [getV_finish, getV_setResultFlag, if_neg hx, if_pos rfl]
  · rw [getV_finish, getV_setResultFlag, if_pos rfl]
  · rw [getV_finish, getV_setResultFlag, if_neg hVF, if_neg hr]

/-! ### The results and the flags as numbers -/

theorem byte_toNat_sub (a b : Byte) : (a - b).toNat = (a.toNat + 256 - b.toNat) % 256 := by
  have hb : b.toNat < 256 := b.isLt
  rw [BitVec.toNat_sub]
  omega

theorem byte_toNat_shiftRight_one (a : Byte) : (a >>> 1).toNat = a.toNat / 2 := by
  rw [BitVec.toNat_ushiftRight, Nat.shiftRight_eq_div_pow]

theorem byte_toNat_shiftLeft_one (a : Byte) : (a <<< 1).toNat = a.toNat * 2 % 256 := by
  rw [BitVec.toNat_shiftLeft, Nat.shiftLeft_eq]

theorem flagByte_decide (p : Prop) [Decidable p] : flagByte (decide p) = if p then 1 else 0 := by
  simp only [flagByte, decide_eq_true_eq]

theorem flagByte_carryOut (a b : Byte) : flagByte (carryOut a b) = if 255 < a.toNat + b.toNat then 1 else 0 :=
  flagByte_decide _

theorem flagByte_noBorrow (a b : Byte) : flagByte (noBorrow a b) = if b.toNat ≤ a.toNat then 1 else 0 :=
  flagByte_decide _

theorem flagByte_toNat (c : Bool) : (flagByte c).toNat = c.toNat := by cases c <;> rfl

theorem flagByte_lowBit_toNat (a : Byte) : (flagByte (lowBit a)).toNat = a.toNat % 2 := by
  rw [flagByte_toNat, lowBit, BitVec.getLsbD, Nat.toNat_testBit, pow_zero, Nat.div_one]

theorem flagByte_highBit_toNat (a : Byte) : (flagByte (highBit a)).toNat = a.toNat / 128 := by
  have ha : a.toNat < 256 := a.isLt
  rw [flagByte_toNat, highBit, BitVec.getLsbD, Nat.toNat_testBit]
  omega

/-- Subtraction of any byte `b` from any byte `a` into `V[x]`, with the inverted borrow as the flag (R118, R120). -/
theorem subtracts_of_exec {i : Instr} {s : State} {x : Reg} {a b : Byte}
    (h : exec i s = .next (finish ⟨s.setResultFlag x (a - b) (noBorrow a b), .next, false⟩)) :
    ∃ t, exec i s = .next t ∧ (x ≠ VF → (t.getV x).toNat = (a.toNat + 256 - b.toNat) % 256) ∧
      t.getV VF = (if b.toNat ≤ a.toNat then 1 else 0) ∧
      (∀ r, r ≠ x → r ≠ VF → t.getV r = s.getV r) ∧ WritesRegsOnly s t ∧ KeepsDraws s t := by
  obtain ⟨t, ht, hx, hVF, frame⟩ := writesResultAndFlag_of_exec h
  exact ⟨t, ht, fun hne => by rw [hx hne, byte_toNat_sub], by rw [hVF, flagByte_noBorrow], frame⟩

/-! ### The statements -/

/-- Settles O34: each effect is the assignment, of DT as the instruction finds it for LD Vx,DT. -/
theorem loadsAssignTheRegister : Obligations.LoadsAssignTheRegister := fun x y kk s =>
  ⟨assigns_of_exec (exec_ldVxKk x kk s), assigns_of_exec (exec_ldVxVy x y s), assigns_of_exec (exec_ldVxDt x s)⟩

/-- Settles O35: the result is the operation on whole bytes, and the library says what it does to each bit. -/
theorem logicIsBitwiseWithNoFlag : Obligations.LogicIsBitwiseWithNoFlag := by
  intro x y s
  refine ⟨?or, ?and, ?xor⟩
  case or =>
    obtain ⟨t, ht, hx, frame⟩ := writesResult_of_exec (exec_orVxVy x y s)
    exact ⟨t, ht, fun k => by rw [hx, BitVec.getLsbD_or], frame⟩
  case and =>
    obtain ⟨t, ht, hx, frame⟩ := writesResult_of_exec (exec_andVxVy x y s)
    exact ⟨t, ht, fun k => by rw [hx, BitVec.getLsbD_and], frame⟩
  case xor =>
    obtain ⟨t, ht, hx, frame⟩ := writesResult_of_exec (exec_xorVxVy x y s)
    exact ⟨t, ht, fun k => by rw [hx, BitVec.getLsbD_xor], frame⟩

/-- Settles O36: the effect writes the byte sum, which is the sum modulo 256, and no flag. -/
theorem addImmediateWrapsWithNoFlag : Obligations.AddImmediateWrapsWithNoFlag := by
  intro x kk s
  obtain ⟨t, ht, hx, frame⟩ := writesResult_of_exec (exec_addVxKk x kk s)
  exact ⟨t, ht, by rw [hx, BitVec.toNat_add], frame⟩

/-- Settles O37: the byte sum is the sum modulo 256, and the carry out is the flag written last. -/
theorem addWritesSumAndCarry : Obligations.AddWritesSumAndCarry := by
  intro x y s
  obtain ⟨t, ht, hx, hVF, frame⟩ := writesResultAndFlag_of_exec (exec_addVxVy x y s)
  exact ⟨t, ht, fun h => by rw [hx h, BitVec.toNat_add], by rw [hVF, flagByte_carryOut], frame⟩

/-- Settles O38: SUBN is SUB with the operands exchanged. -/
theorem subtractsWriteDifferenceAndNoBorrow : Obligations.SubtractsWriteDifferenceAndNoBorrow := fun x y s =>
  ⟨subtracts_of_exec (exec_subVxVy x y s), subtracts_of_exec (exec_subnVxVy x y s)⟩

/-- Settles O39: neither effect reads `y`, and the bit shifted out is bit 0 or bit 7 of the old value. -/
theorem shiftsWriteTheBitShiftedOut : Obligations.ShiftsWriteTheBitShiftedOut := by
  intro x y s
  refine ⟨?shr, ?shl⟩
  case shr =>
    obtain ⟨t, ht, hx, hVF, frame⟩ := writesResultAndFlag_of_exec (exec_shrVx x y s)
    exact ⟨t, ht, fun h => by rw [hx h, byte_toNat_shiftRight_one], by rw [hVF, flagByte_lowBit_toNat], frame⟩
  case shl =>
    obtain ⟨t, ht, hx, hVF, frame⟩ := writesResultAndFlag_of_exec (exec_shlVx x y s)
    exact ⟨t, ht, fun h => by rw [hx h, byte_toNat_shiftLeft_one], by rw [hVF, flagByte_highBit_toNat], frame⟩

end Sys2Proof.Machine
end

section
/-! ## LD I,addr (R131) -/
namespace Sys2Proof.Machine

theorem exec_ldIAddr (nnn : Addr12) (s : State) :
    exec (.ldIAddr nnn) s = .next (finish ⟨s.setI (zext16 nnn), .next, false⟩) := rfl

/-- The frame of an instruction whose effect is one assignment to `I`, whatever the value (R131, R133). -/
theorem assignsIndex_of_exec {i : Instr} {s : State} {a : Word} (h : exec i s = .next (finish ⟨s.setI a, .next, false⟩)) :
    ∃ t, exec i s = .next t ∧ t.index = a ∧ CompletesAt (s.pc + 2) t ∧ TicksFrom s.dt s.st t ∧
      KeepsRegs s t ∧ KeepsStack s t ∧ KeepsMem s t ∧ KeepsFb s t ∧ KeepsHost s t ∧ KeepsDraws s t :=
  ⟨_, h, rfl, ⟨rfl, rfl, rfl⟩, ticksFrom_finish _, fun _ => rfl, ⟨rfl, fun _ => rfl⟩, fun _ => rfl, fun _ _ => rfl,
    ⟨fun _ => rfl, rfl, rfl⟩, rfl⟩

/-- Settles O41: the effect is one assignment to `I`, and zero-extension keeps the address. -/
theorem loadIndexAssignsTheAddress : Obligations.LoadIndexAssignsTheAddress := by
  intro nnn s
  obtain ⟨t, ht, hI, frame⟩ := assignsIndex_of_exec (exec_ldIAddr nnn s)
  exact ⟨t, ht, by rw [hI, zext16_toNat], frame⟩

end Sys2Proof.Machine
end

section
/-! ## LD Vx,K, LD DT,Vx and LD ST,Vx (R154 to R156) -/
namespace Sys2Proof.Machine

/-- The step that finds a key pressed (R154). -/
theorem exec_ldVxK_of_pressed {s : State} {k : Fin 16} (x : Reg) (h : lowestKey s = some k) :
    exec (.ldVxK x) s = .next (finish ⟨s.setV x (BitVec.ofNat 8 k.val), .next, false⟩) := execLdVxK_ok h

/-- The step that finds none (R93). -/
theorem exec_ldVxK_of_none {s : State} (x : Reg) (h : lowestKey s = none) : exec (.ldVxK x) s = .next (hold s) := by
  simp only [exec, execLdVxK, h]

theorem exec_ldDtVx (x : Reg) (s : State) :
    exec (.ldDtVx x) s = .next (finish ⟨{ s with dt := s.getV x }, .next, false⟩) := rfl

theorem exec_ldStVx (x : Reg) (s : State) :
    exec (.ldStVx x) s = .next (finish ⟨{ s with st := s.getV x }, .next, false⟩) := rfl

/-- A key's code is a byte (R151). -/
theorem keyByte_toNat (k : Fin 16) : (BitVec.ofNat 8 k.val).toNat = k.val := by
  have hk : k.val < 2 ^ 8 := by omega
  rw [BitVec.toNat_ofNat, Nat.mod_eq_of_lt hk]

/-- The frame of an instruction whose effect is on the timers alone: the tick finds what it left there (R95). -/
theorem setsTimers_of_exec {i : Instr} {s : State} {dt st : Byte}
    (h : exec i s = .next (finish ⟨{ s with dt := dt, st := st }, .next, false⟩)) :
    ∃ t, exec i s = .next t ∧ TicksFrom dt st t ∧ CompletesAt (s.pc + 2) t ∧
      KeepsRegs s t ∧ KeepsIndex s t ∧ KeepsStack s t ∧ KeepsMem s t ∧ KeepsFb s t ∧ KeepsHost s t ∧ KeepsDraws s t :=
  ⟨_, h, ticksFrom_finish _, ⟨rfl, rfl, rfl⟩, fun _ => rfl, rfl, ⟨rfl, fun _ => rfl⟩, fun _ => rfl, fun _ _ => rfl,
    ⟨fun _ => rfl, rfl, rfl⟩, rfl⟩

/-- Settles O56: the pressed key below which none is pressed is the one `lowestKey` finds, and without a pressed key it finds
none. -/
theorem keyWaitStoresTheLowestKeyOrHolds : Obligations.KeyWaitStoresTheLowestKeyOrHolds := by
  intro x s
  refine ⟨fun k hk hlow => ?pressed, fun hnone => ?none⟩
  case pressed =>
    have hlowest : lowestKey s = some k := lowestKey_some.2 ⟨hk, hlow⟩
    obtain ⟨t, ht, hx, frame⟩ := writesResult_of_exec (exec_ldVxK_of_pressed x hlowest)
    exact ⟨t, ht, by rw [hx, keyByte_toNat], frame⟩
  case none => exact exec_ldVxK_of_none x (lowestKey_none.2 hnone)

/-- Settles O57: each effect is one assignment to a timer, and the step's tick reads the timers after it. -/
theorem setTimersThenTick : Obligations.SetTimersThenTick := fun x s =>
  ⟨setsTimers_of_exec (exec_ldDtVx x s), setsTimers_of_exec (exec_ldStVx x s)⟩

end Sys2Proof.Machine
end

section
/-! ## The encoder and the decoder (R70 to R79) -/
namespace Sys2Proof

/-! ### The fields of a word in each format (R71, R72) -/

@[simp] theorem opOf_formatA (op : Nibble) (nnn : Addr12) : opOf (formatA op nnn) = op := by
  simp only [opOf, formatA]; ext k hk; interval_cases k <;> simp
@[simp] theorem nnnOf_formatA (op : Nibble) (nnn : Addr12) : nnnOf (formatA op nnn) = nnn := by
  simp only [nnnOf, formatA]; ext k hk; interval_cases k <;> simp
@[simp] theorem opOf_formatI (op : Nibble) (x : Reg) (kk : Byte) : opOf (formatI op x kk) = op := by
  simp only [opOf, formatI]; ext k hk; interval_cases k <;> simp
@[simp] theorem xOf_formatI (op : Nibble) (x : Reg) (kk : Byte) : xOf (formatI op x kk) = x := by
  simp only [xOf, formatI]; ext k hk; interval_cases k <;> simp
@[simp] theorem kkOf_formatI (op : Nibble) (x : Reg) (kk : Byte) : kkOf (formatI op x kk) = kk := by
  simp only [kkOf, formatI]; ext k hk; interval_cases k <;> simp
@[simp] theorem opOf_formatR (op : Nibble) (x y : Reg) (f : Nibble) : opOf (formatR op x y f) = op := by
  simp only [opOf, formatR]; ext k hk; interval_cases k <;> simp
@[simp] theorem xOf_formatR (op : Nibble) (x y : Reg) (f : Nibble) : xOf (formatR op x y f) = x := by
  simp only [xOf, formatR]; ext k hk; interval_cases k <;> simp
@[simp] theorem yOf_formatR (op : Nibble) (x y : Reg) (f : Nibble) : yOf (formatR op x y f) = y := by
  simp only [yOf, formatR]; ext k hk; interval_cases k <;> simp
@[simp] theorem nOf_formatR (op : Nibble) (x y : Reg) (f : Nibble) : nOf (formatR op x y f) = f := by
  simp only [nOf, formatR]; ext k hk; interval_cases k <;> simp

theorem formatA_fields (w : Word) : formatA (opOf w) (nnnOf w) = w := by
  simp only [formatA, opOf, nnnOf]; ext k hk; interval_cases k <;> simp
theorem formatI_fields (w : Word) : formatI (opOf w) (xOf w) (kkOf w) = w := by
  simp only [formatI, opOf, xOf, kkOf]; ext k hk; interval_cases k <;> simp
theorem formatR_fields (w : Word) : formatR (opOf w) (xOf w) (yOf w) (nOf w) = w := by
  simp only [formatR, opOf, xOf, yOf, nOf]; ext k hk; interval_cases k <;> simp

/-- Settles O2: each field of the encoded word is the operand that was put there, and the first nibble and the function field
select the instruction's own line of the decoder. -/
theorem decodeOfEncodeIsTheInstruction : Obligations.DecodeOfEncodeIsTheInstruction := by
  intro i
  cases i
  case cls | ret => rfl
  case jpAddr | callAddr | ldIAddr | jpV0Addr => simp [encode, decode]
  case seVxKk | sneVxKk | ldVxKk | addVxKk | rndVxKk | drwVxVyN => simp [encode, decode]
  case seVxVy | sneVxVy => simp [encode, decode, decodeIfZero]
  case skpVx | sknpVx => simp [encode, decode, decodeE]
  case ldVxDt | ldVxK | ldDtVx | ldStVx | addIVx | ldFVx | ldBVx | ldMemVx | ldVxMem => simp [encode, decode, decodeF]
  all_goals simp [encode, decode, decode8]

/-! ### Encoding what a group of the decoder gives (R74) -/

theorem encode_of_decode0 {nnn : Addr12} {i : Instr} (h : decode0 nnn = some i) : encode i = formatA 0x0 nnn := by
  unfold decode0 at h
  split at h <;> cases h <;> rfl

theorem decodeIfZero_eq_some {n : Nibble} {i j : Instr} : decodeIfZero n i = some j ↔ n = 0 ∧ i = j := by
  unfold decodeIfZero
  split <;> simp_all

theorem encode_of_decode8 {x y : Reg} {n : Nibble} {i : Instr} (h : decode8 x y n = some i) : encode i = formatR 0x8 x y n := by
  unfold decode8 at h
  split at h <;> cases h <;> rfl

theorem encode_of_decodeE {x : Reg} {kk : Byte} {i : Instr} (h : decodeE x kk = some i) : encode i = formatI 0xE x kk := by
  unfold decodeE at h
  split at h <;> cases h <;> rfl

theorem encode_of_decodeF {x : Reg} {kk : Byte} {i : Instr} (h : decodeF x kk = some i) : encode i = formatI 0xF x kk := by
  unfold decodeF at h
  split at h <;> cases h <;> rfl

/-- A decoded instruction's word has the fields of the word it was decoded from, in the format of its group (R72). -/
theorem encode_of_decode {w : Word} {i : Instr} (h : decode w = some i) :
    encode i = formatA (opOf w) (nnnOf w) ∨ encode i = formatI (opOf w) (xOf w) (kkOf w) ∨
    encode i = formatR (opOf w) (xOf w) (yOf w) (nOf w) := by
  unfold decode at h
  split at h
  case h_17 => cases h
  all_goals
    rename_i hop
    rw [hop]
  case h_1 => exact .inl (encode_of_decode0 h)
  case h_2 | h_3 | h_11 | h_12 => cases h; exact .inl rfl
  case h_4 | h_5 | h_7 | h_8 | h_13 => cases h; exact .inr (.inl rfl)
  case h_6 | h_10 =>
    obtain ⟨hn, rfl⟩ := decodeIfZero_eq_some.1 h
    rw [hn]
    exact .inr (.inr rfl)
  case h_9 => exact .inr (.inr (encode_of_decode8 h))
  case h_14 => cases h; exact .inr (.inr rfl)
  case h_15 => exact .inr (.inl (encode_of_decodeE h))
  case h_16 => exact .inr (.inl (encode_of_decodeF h))

/-- Settles O3: whichever format the instruction has, its fields are all the bits of the word. -/
theorem encodeOfDecodeIsTheWord : Obligations.EncodeOfDecodeIsTheWord := by
  intro w i h
  rcases encode_of_decode h with h | h | h
  · rw [h, formatA_fields]
  · rw [h, formatI_fields]
  · rw [h, formatR_fields]

/-! ### The table of masks and matches (R75 to R77) -/

/-- Every instruction's word fits the instruction's own row, from the statement for each constructor. -/
theorem encodesItsRow (i : Instr) : Laws.EncodesItsRow.Statement i := by
  cases i
  case cls => exact Laws.EncodesItsRow.cls
  case ret => exact Laws.EncodesItsRow.ret
  case jpAddr => exact Laws.EncodesItsRow.jpAddr _
  case callAddr => exact Laws.EncodesItsRow.callAddr _
  case seVxKk => exact Laws.EncodesItsRow.seVxKk _ _
  case sneVxKk => exact Laws.EncodesItsRow.sneVxKk _ _
  case seVxVy => exact Laws.EncodesItsRow.seVxVy _ _
  case ldVxKk => exact Laws.EncodesItsRow.ldVxKk _ _
  case addVxKk => exact Laws.EncodesItsRow.addVxKk _ _
  case ldVxVy => exact Laws.EncodesItsRow.ldVxVy _ _
  case orVxVy => exact Laws.EncodesItsRow.orVxVy _ _
  case andVxVy => exact Laws.EncodesItsRow.andVxVy _ _
  case xorVxVy => exact Laws.EncodesItsRow.xorVxVy _ _
  case addVxVy => exact Laws.EncodesItsRow.addVxVy _ _
  case subVxVy => exact Laws.EncodesItsRow.subVxVy _ _
  case shrVx => exact Laws.EncodesItsRow.shrVx _ _
  case subnVxVy => exact Laws.EncodesItsRow.subnVxVy _ _
  case shlVx => exact Laws.EncodesItsRow.shlVx _ _
  case sneVxVy => exact Laws.EncodesItsRow.sneVxVy _ _
  case ldIAddr => exact Laws.EncodesItsRow.ldIAddr _
  case jpV0Addr => exact Laws.EncodesItsRow.jpV0Addr _
  case rndVxKk => exact Laws.EncodesItsRow.rndVxKk _ _
  case drwVxVyN => exact Laws.EncodesItsRow.drwVxVyN _ _ _
  case skpVx => exact Laws.EncodesItsRow.skpVx _
  case sknpVx => exact Laws.EncodesItsRow.sknpVx _
  case ldVxDt => exact Laws.EncodesItsRow.ldVxDt _
  case ldVxK => exact Laws.EncodesItsRow.ldVxK _
  case ldDtVx => exact Laws.EncodesItsRow.ldDtVx _
  case ldStVx => exact Laws.EncodesItsRow.ldStVx _
  case addIVx => exact Laws.EncodesItsRow.addIVx _
  case ldFVx => exact Laws.EncodesItsRow.ldFVx _
  case ldBVx => exact Laws.EncodesItsRow.ldBVx _
  case ldMemVx => exact Laws.EncodesItsRow.ldMemVx _
  case ldVxMem => exact Laws.EncodesItsRow.ldVxMem _

theorem legalWord_iff {w : Word} : legalWord w = true ↔ ∃ p ∈ patterns, p.fits w = true := List.any_eq_true

/-- Whether a word decodes depends on its first nibble and the field its group selects by (R74): all of `nnn` in group 0, the
low nibble in groups 5, 8 and 9, the low byte in groups E and F. -/
theorem isSome_decode_congr {w v : Word} (hop : opOf w = opOf v) (h0 : opOf v = 0x0 → nnnOf w = nnnOf v)
    (hn : opOf v = 0x5 ∨ opOf v = 0x8 ∨ opOf v = 0x9 → nOf w = nOf v)
    (hkk : opOf v = 0xE ∨ opOf v = 0xF → kkOf w = kkOf v) : (decode w).isSome = (decode v).isSome := by
  unfold decode
  rw [hop]
  split
  case h_1 h => rw [h0 h]
  case h_6 h => rw [hn (.inl h)]; unfold decodeIfZero; split <;> rfl
  case h_9 h => rw [hn (.inr (.inl h))]; unfold decode8; split <;> rfl
  case h_10 h => rw [hn (.inr (.inr h))]; unfold decodeIfZero; split <;> rfl
  case h_15 h => rw [hkk (.inl h)]; unfold decodeE; split <;> rfl
  case h_16 h => rw [hkk (.inr h)]; unfold decodeF; split <;> rfl
  all_goals rfl

/-- The mask of every row covers the fields its group of the decoder selects by, and its match decodes. -/
theorem patterns_cover : ∀ p ∈ patterns, opOf p.mask = 0xF ∧ (opOf p.value = 0x0 → nnnOf p.mask = 0xFFF) ∧
    (opOf p.value = 0x5 ∨ opOf p.value = 0x8 ∨ opOf p.value = 0x9 → nOf p.mask = 0xF) ∧
    (opOf p.value = 0xE ∨ opOf p.value = 0xF → kkOf p.mask = 0xFF) ∧ (decode p.value).isSome = true := by decide

/-- A field that a mask covers is kept by it. -/
theorem extractLsb'_and_of_covered {w m : Word} (start len : Nat) (hm : m.extractLsb' start len = BitVec.allOnes len) :
    (w &&& m).extractLsb' start len = w.extractLsb' start len := by
  rw [BitVec.extractLsb'_and, hm, BitVec.and_allOnes]

theorem isSome_decode_of_fits {p : Pattern} {w : Word} (hp : p ∈ patterns) (hw : p.fits w = true) : (decode w).isSome = true := by
  obtain ⟨hop, h0, hn, hkk, hv⟩ := patterns_cover p hp
  have hvalue : w &&& p.mask = p.value := beq_iff_eq.1 hw
  rw [← hvalue] at h0 hn hkk hv
  rw [← hv]
  exact isSome_decode_congr (extractLsb'_and_of_covered 12 4 hop).symm
    (fun h => (extractLsb'_and_of_covered 0 12 (h0 h)).symm) (fun h => (extractLsb'_and_of_covered 0 4 (hn h)).symm)
    (fun h => (extractLsb'_and_of_covered 0 8 (hkk h)).symm)

/-- Settles O4: a decoded word is its instruction's encoding, which fits a row; a word that fits a row agrees with the row's
match wherever its group of the decoder looks. -/
theorem decodesExactlyTheLegalWords : Obligations.DecodesExactlyTheLegalWords := by
  intro w
  rw [Bool.eq_iff_iff, legalWord_iff]
  constructor
  · intro h
    obtain ⟨i, hi⟩ := Option.isSome_iff_exists.1 h
    obtain ⟨hfits, hmem⟩ := encodesItsRow i
    rw [encodeOfDecodeIsTheWord w i hi] at hfits
    exact ⟨_, hmem, hfits⟩
  · rintro ⟨p, hp, hw⟩
    exact isSome_decode_of_fits hp hw

/-- Two rows whose matches differ in a bit that both masks cover. -/
def Pattern.conflicts (p q : Pattern) : Prop := p.value &&& q.mask ≠ q.value &&& p.mask

theorem Pattern.not_fits_of_conflicts {p q : Pattern} {w : Word} (h : p.conflicts q) (hp : p.fits w = true) :
    ¬ q.fits w = true := by
  intro hq
  apply h
  rw [← beq_iff_eq.1 hp, ← beq_iff_eq.1 hq, BitVec.and_assoc, BitVec.and_assoc, BitVec.and_comm p.mask]

theorem patterns_conflict : patterns.Pairwise Pattern.conflicts := by
  unfold Pattern.conflicts
  decide

/-- Settles O5: of two rows that a word fits neither conflicts with the other, and any two rows of the table conflict. -/
theorem noTwoPatternsOverlap : Obligations.NoTwoPatternsOverlap := by
  intro w
  have hc := patterns_conflict.filter (·.fits w)
  have hfits : ∀ p ∈ patterns.filter (·.fits w), p.fits w = true := fun p hp => (List.mem_filter.1 hp).2
  generalize patterns.filter (·.fits w) = rows at hc hfits
  match rows with
  | [] => exact Nat.zero_le 1
  | [_] => exact le_refl 1
  | p :: q :: _ =>
    have hpq : p.conflicts q := List.rel_of_pairwise_cons hc (by simp)
    exact absurd (hfits q (by simp)) (Pattern.not_fits_of_conflicts hpq (hfits p (by simp)))

/-- Settles O1: the decoder evaluates on each word. -/
theorem sampleWordsDecode : Obligations.SampleWordsDecode := by
  unfold Obligations.SampleWordsDecode
  decide

end Sys2Proof
end

section
/-! ## The step cycle (R90 to R99) -/
namespace Sys2Proof.Machine

/-- Settles O6: neither the halted check, nor the fetch, nor the decoder ends the step. -/
theorem stepRunsTheDecodedInstruction : Obligations.StepRunsTheDecodedInstruction := by
  intro s i hrun hpc hdec
  rcases step_cases s with ⟨h, -⟩ | ⟨-, h, -⟩ | ⟨-, -, h, -⟩ | ⟨-, -, j, hj, h⟩
  · exact absurd hrun h
  · omega
  · rw [hdec] at h; cases h
  · rw [hdec] at hj; cases hj; exact h

/-- A word is its two bytes, the high one first (R56). -/
theorem wordOfBytes_toNat (hi lo : Byte) : (wordOfBytes hi lo).toNat = hi.toNat * 256 + lo.toNat := by
  have hhi : hi.toNat < 256 := hi.isLt
  have hlo : lo.toNat < 256 := lo.isLt
  have hw : wordOfBytes hi lo = zextByte hi <<< 8 ||| zextByte lo := rfl
  rw [hw, BitVec.toNat_or, BitVec.toNat_shiftLeft, zextByte_toNat, zextByte_toNat,
    Nat.mod_eq_of_lt (by rw [Nat.shiftLeft_eq]; omega), ← Nat.shiftLeft_add_eq_or_of_lt hlo, Nat.shiftLeft_eq]

theorem fetch_of_le {s : State} (h : s.pc.toNat ≤ 4094) : fetch s = .ok (fetchWord s) := by
  rw [fetch, if_neg (by omega)]

/-- Settles O7: the fetch joins the bytes at `PC` and `PC + 1` where both exist. -/
theorem fetchIsBigEndianUpTo4094 : Obligations.FetchIsBigEndianUpTo4094 := by
  intro s
  refine ⟨fun h => ⟨_, fetch_of_le h, wordOfBytes_toNat _ _⟩, fun h => ?_⟩
  rw [fetch, if_pos h]

theorem step_of_pc_out_of_range {s : State} (hrun : running s) (hpc : 4094 < s.pc.toNat) :
    step s = .next (raise ⟨.boundsViolation .pcOutOfRange, s.pc.toNat⟩ none s) := by
  rcases step_cases s with ⟨h, -⟩ | ⟨-, -, h⟩ | ⟨-, h, -⟩ | ⟨-, h, -⟩
  · exact absurd hrun h
  · exact h
  · omega
  · omega

theorem step_of_illegal {s : State} (hrun : running s) (hpc : s.pc.toNat ≤ 4094) (hdec : decode (fetchWord s) = none) :
    step s = .next (raise ⟨.unsupportedOpcode, (fetchWord s).toNat⟩ (some (fetchWord s)) s) := by
  rcases step_cases s with ⟨h, -⟩ | ⟨-, h, -⟩ | ⟨-, -, -, h⟩ | ⟨-, -, i, h, -⟩
  · exact absurd hrun h
  · omega
  · exact h
  · rw [hdec] at h; cases h

/-- Settles O8: the two ends of a step before an execution; the words that do not decode are those that fit no row. -/
theorem fetchAndDecodeFaults : Obligations.FetchAndDecodeFaults := by
  intro s hrun
  refine ⟨step_of_pc_out_of_range hrun, fun hpc hw => step_of_illegal hrun hpc ?_⟩
  rw [← Option.not_isSome_iff_eq_none, decodesExactlyTheLegalWords, hw]
  exact Bool.false_ne_true

/-- The condition `c` a step of `s` raises, with the word `w` it has fetched by then (R173). -/
inductive StepRaises (s : State) : Cause → Option Word → Prop
  | fetch (hpc : 4094 < s.pc.toNat) : StepRaises s ⟨.boundsViolation .pcOutOfRange, s.pc.toNat⟩ none
  | decode (hpc : s.pc.toNat ≤ 4094) (hdec : decode (fetchWord s) = none) :
      StepRaises s ⟨.unsupportedOpcode, (fetchWord s).toNat⟩ (some (fetchWord s))
  | execute {i : Instr} {c : Cause} (hpc : s.pc.toNat ≤ 4094) (hdec : decode (fetchWord s) = some i) (hc : Raises i s c) :
      StepRaises s c (some (fetchWord s))

/-- The end of a step, one constructor per outcome (R90): `step_ends` says that every step has one. -/
inductive StepEnds (s : State) : State → Prop
  | halted (hhalt : ¬ running s) : StepEnds s (halt s)
  | raised {c : Cause} {w : Option Word} (hrun : running s) (hc : StepRaises s c w) : StepEnds s (raise c w s)
  | completed {i : Instr} {e : Effect} (hrun : running s) (hpc : s.pc.toNat ≤ 4094) (hdec : decode (fetchWord s) = some i)
      (he : Executes i s e) : StepEnds s (finish e)
  | held {x : Reg} (hrun : running s) (hpc : s.pc.toNat ≤ 4094) (hdec : decode (fetchWord s) = some (.ldVxK x))
      (hkey : lowestKey s = none) : StepEnds s (hold s)

/-- Everything a step can do: `step_cases` and, where an instruction is executed, `exec_cases`. -/
theorem step_ends {s t : State} (h : step s = .next t) : StepEnds s t := by
  rcases step_cases s with ⟨hhalt, hs⟩ | ⟨hrun, hpc, hs⟩ | ⟨hrun, hpc, hdec, hs⟩ | ⟨hrun, hpc, i, hdec, hs⟩ <;> rw [hs] at h
  · cases h; exact .halted hhalt
  · cases h; exact .raised hrun (.fetch hpc)
  · cases h; exact .raised hrun (.decode hpc hdec)
  · rcases exec_cases h with ⟨e, rfl, he⟩ | ⟨c, rfl, hc⟩ | ⟨x, rfl, hkey, rfl⟩
    · exact .completed hrun hpc hdec he
    · rw [encodeOfDecodeIsTheWord _ _ hdec]
      exact .raised hrun (.execute hpc hdec hc)
    · exact .held hrun hpc hdec hkey

/-- A step always answers a state (R90). -/
theorem step_next (s : State) : ∃ t, step s = .next t := by
  rcases step_cases s with ⟨-, h⟩ | ⟨-, -, h⟩ | ⟨-, -, -, h⟩ | ⟨-, -, i, -, h⟩
  · exact ⟨_, h⟩
  · exact ⟨_, h⟩
  · exact ⟨_, h⟩
  · rw [h]; exact exec_next i s

/-- Settles O10: among the ends of a step only the fault entry leaves a running machine halted. -/
theorem faultingStepWritesOnlyTheLatch : Obligations.FaultingStepWritesOnlyTheLatch := by
  intro s t hrun hstep hhalted
  cases step_ends hstep with
  | halted hhalt => exact absurd hrun hhalt
  | raised => rfl
  | completed _ _ _ he => exact absurd (he.fault.trans hrun) hhalted
  | held => exact absurd hrun hhalted

/-- Settles O11: a record appears only by the fault entry, whose conditions are rows 1 to 7 of the table. -/
theorem faultRecordsFollowTheTable : Obligations.FaultRecordsFollowTheTable := by
  intro s t r hrun hstep hr
  cases step_ends hstep with
  | halted hhalt => exact absurd hrun hhalt
  | completed _ _ _ he => rw [finish_fault, he.fault, hrun] at hr; cases hr
  | held => rw [hold_fault, hrun] at hr; cases hr
  | raised _ hc =>
    rw [raise_fault] at hr
    cases hr
    refine ⟨rfl, ?_⟩
    cases hc with
    | fetch hpc => exact .inl ⟨rfl, rfl, rfl, rfl, hpc⟩
    | decode hpc hdec => exact .inr ⟨hpc, rfl, .inl ⟨rfl, rfl, rfl, hdec⟩⟩
    | execute hpc hdec hc =>
      refine .inr ⟨hpc, rfl, .inr ⟨_, hdec, ?_⟩⟩
      rcases hc with ⟨hk, h⟩ | ⟨hk, h⟩ | ⟨hk, h⟩ | ⟨hk, h⟩ | ⟨hk, h⟩
      · exact .inl ⟨hk, congrArg FaultKind.code hk, h⟩
      · exact .inr (.inl ⟨hk, congrArg FaultKind.code hk, h⟩)
      · exact .inr (.inr (.inl ⟨hk, congrArg FaultKind.code hk, h⟩))
      · exact .inr (.inr (.inr (.inl ⟨hk, congrArg FaultKind.code hk, h⟩)))
      · exact .inr (.inr (.inr (.inr ⟨hk, congrArg FaultKind.code hk, h⟩)))

/-- Settles O12: each end of a step has an outcome of its own, and is the state that outcome's clause describes. -/
theorem outcomesAreTheTable : Obligations.OutcomesAreTheTable := by
  intro s
  obtain ⟨t, hstep⟩ := step_next s
  refine ⟨t, hstep, ?_⟩
  cases step_ends hstep with
  | halted hhalt => exact ⟨nofun, nofun, nofun, ⟨fun _ => hhalt, fun _ => rfl⟩, fun _ => rfl⟩
  | raised hrun => exact ⟨nofun, nofun, fun _ => ⟨hrun, nofun⟩, ⟨nofun, fun h => absurd hrun h⟩, nofun⟩
  | completed hrun _ _ he =>
    exact ⟨fun _ => ⟨hrun, he.fault.trans hrun⟩, nofun, nofun, ⟨nofun, fun h => absurd hrun h⟩, nofun⟩
  | held hrun => exact ⟨nofun, fun _ => ⟨hrun, rfl⟩, nofun, ⟨nofun, fun h => absurd hrun h⟩, nofun⟩

/-- Settles O13: the tick of a completed step reads the timers its effect holds, and no other end writes them. -/
theorem timersTickOncePerCompletedStep : Obligations.TimersTickOncePerCompletedStep := by
  intro s t hstep
  cases step_ends hstep with
  | halted | raised | held => exact ⟨nofun, fun _ => ⟨rfl, rfl, rfl⟩⟩
  | @completed i e _ _ hdec he =>
    refine ⟨fun _ j hj => ?_, fun h => absurd rfl h⟩
    obtain rfl : i = j := Option.some.inj (hdec.symm.trans hj)
    rw [← he.dt, ← he.st]
    exact ticksFrom_finish e

/-- Settles O14: a completed step applies its effect's directive to the `PC` it began with, and no other end writes `PC`. -/
theorem pcMovesByTwoOrFourOrJumps : Obligations.PcMovesByTwoOrFourOrJumps := by
  intro s t hstep
  cases step_ends hstep with
  | halted | raised | held => exact ⟨nofun, fun _ => rfl⟩
  | @completed i e _ _ hdec he =>
    refine ⟨fun _ j hj => ?_, fun h => absurd rfl h⟩
    obtain rfl : i = j := Option.some.inj (hdec.symm.trans hj)
    rw [finish_pc, he.pc]
    rcases he.directive with hd | ⟨hskip, hd⟩ | ⟨hjump, -⟩
    · exact .inl (by rw [hd]; rfl)
    · exact .inr (.inl ⟨hskip, by rw [hd]; rfl⟩)
    · exact .inr (.inr hjump)

theorem finish_st_of_beeps {e : Effect} (h : beeps e.state = true) : (finish e).st = 0 := by
  have h1 : e.state.st.toNat = 1 := (beeps_iff _).1 h
  apply BitVec.eq_of_toNat_eq
  rw [finish_st, tickDown_toNat, h1]
  rfl

/-- Settles O20: both events come from the end of a completed step, where `beep` finds `ST = 1`, which the tick takes to 0. -/
theorem eventsHaveTheirCauses : Obligations.EventsHaveTheirCauses := by
  intro s t hstep
  cases step_ends hstep with
  | halted | raised | held => exact ⟨nofun, nofun⟩
  | completed _ _ hdec he =>
    refine ⟨fun hrefresh => ⟨rfl, ?_⟩, fun hbeep => ⟨rfl, finish_st_of_beeps hbeep⟩⟩
    obtain ⟨x, y, n, rfl⟩ := he.refresh hrefresh
    exact ⟨x, y, n, hdec⟩

/-- `awaiting_key`, clause by clause (R205). -/
theorem awaitingKey_iff {s : State} : awaitingKey s = true ↔
    running s ∧ s.pc.toNat ≤ 4094 ∧ (∃ x, decode (fetchWord s) = some (.ldVxK x)) ∧ lowestKey s = none := by
  simp only [awaitingKey, halted, running, Bool.and_eq_true, decide_eq_true_eq, Option.isNone_iff_eq_none, Bool.not_eq_true',
    Option.isSome_eq_false_iff]
  constructor
  · rintro ⟨⟨⟨hrun, hpc⟩, hkey⟩, hdec⟩
    split at hdec
    · rename_i x hx
      exact ⟨hrun, hpc, ⟨x, hx⟩, hkey⟩
    · cases hdec
  · rintro ⟨hrun, hpc, ⟨x, hx⟩, hkey⟩
    exact ⟨⟨⟨hrun, hpc⟩, hkey⟩, by rw [hx]⟩

theorem step_of_awaitingKey {s : State} (h : awaitingKey s = true) : step s = .next (hold s) := by
  obtain ⟨hrun, hpc, ⟨x, hdec⟩, hkey⟩ := awaitingKey_iff.1 h
  rw [stepRunsTheDecodedInstruction s _ hrun hpc hdec, exec_ldVxK_of_none x hkey]

/-- Settles O21: the step of a machine that awaits a key is `hold`, no other end has that outcome, and `hold` writes nothing that
`awaiting_key` reads. -/
theorem holdsExactlyWhenAwaitingKey : Obligations.HoldsExactlyWhenAwaitingKey := by
  intro s t hstep
  have hiff : t.out.outcome = .hold ↔ awaitingKey s = true := by
    refine ⟨fun hhold => ?_, fun hwait => ?_⟩
    · cases step_ends hstep with
      | halted | raised | completed => cases hhold
      | held hrun hpc hdec hkey => exact awaitingKey_iff.2 ⟨hrun, hpc, ⟨_, hdec⟩, hkey⟩
    · rw [step_of_awaitingKey hwait] at hstep
      cases hstep
      rfl
  refine ⟨hiff, fun hhold => ?_⟩
  have hwait := hiff.1 hhold
  rw [step_of_awaitingKey hwait] at hstep
  cases hstep
  exact hwait

/-- Settles O22: the jump writes nothing but `PC`, and leaves it as it is, so the next step fetches the same word. -/
theorem selfJumpIsAStableEnd : Obligations.SelfJumpIsAStableEnd := by
  rintro s ⟨hrun, hpc, nnn, hdec, hself⟩
  have hstep : step s = .next (finish ⟨s, .jump s.pc, false⟩) := by
    rw [stepRunsTheDecodedInstruction s _ hrun hpc hdec, exec_jpAddr, hself]
  exact ⟨_, hstep, ⟨hrun, hpc, nnn, hdec, hself⟩, writesPcOnly_finish s _⟩

end Sys2Proof.Machine
end

section
/-! ## CALL, RET and JP V0,addr (R101, R103, R108, R109) -/
namespace Sys2Proof.Machine

/-- The push without room (R103, R165). -/
theorem exec_callAddr_of_full {s : State} (nnn : Addr12) (h : s.sp.val = 16) : exec (.callAddr nnn) s =
    .next (raised (.boundsViolation .stackOverflow) (some (encode (.callAddr nnn))) 16 s) := by
  simp only [exec, execCallAddr, push_error h]
  rfl

/-- The pop with no entry in use (R101, R166). -/
theorem exec_ret_of_empty {s : State} (h : s.sp.val = 0) :
    exec .ret s = .next (raised (.boundsViolation .stackUnderflow) (some 0x00EE) 0 s) := by
  simp only [exec, execRet, pop_error h]
  rfl

/-- Settles O30: the push and the pop raise at the two ends of the stack, before any write. -/
theorem stackFaultsAtItsEnds : Obligations.StackFaultsAtItsEnds :=
  ⟨fun nnn _ h => exec_callAddr_of_full nnn h, fun _ h => exec_ret_of_empty h⟩

/-- Settles O28: the push writes one entry of the stack and SP, and the jump's target is the zero-extended address. -/
theorem callPushesTheReturnAddress : Obligations.CallPushesTheReturnAddress := fun nnn s h =>
  ⟨_, execCallAddr_ok h, rfl, fun k => stack_set s.stack s.sp.val h (s.pc + 2) k, zext16_toNat nnn, ⟨rfl, rfl, rfl⟩,
    ticksFrom_finish _, fun _ => rfl, rfl, fun _ => rfl, fun _ _ => rfl, ⟨fun _ => rfl, rfl, rfl⟩, rfl⟩

/-- Settles O29: the pop writes SP alone, and the entry popped is the jump's target. -/
theorem retPopsIntoPc : Obligations.RetPopsIntoPc := fun _ _ h =>
  ⟨_, execRet_ok h, rfl, fun _ => rfl, ⟨rfl, rfl, rfl⟩,
    ticksFrom_finish _, fun _ => rfl, rfl, fun _ => rfl, fun _ _ => rfl, ⟨fun _ => rfl, rfl, rfl⟩, rfl⟩

/-- Settles O31: the entry that RET pops is the one that CALL pushed. -/
theorem callThenRetReturns : Obligations.CallThenRetReturns := by
  intro nnn s h
  obtain ⟨t, ht, htsp, htstack, -, -, -, -, -, -, -, ⟨-, htfault, -⟩, -⟩ := callPushesTheReturnAddress nnn s h
  obtain ⟨u, hu, husp, -, ⟨hupc, -, -⟩, -, -, -, -, -, ⟨-, hufault, -⟩, -⟩ := retPopsIntoPc t ⟨s.sp.val, h⟩ htsp
  have htop : t.stack[(⟨s.sp.val, h⟩ : Fin 16)] = s.pc + 2 := by rw [htstack, if_pos rfl]
  exact ⟨t, u, ht, hu, hupc.trans htop, Fin.ext husp, hufault.trans htfault⟩

/-- Settles O33: the sum of a 12-bit address and a byte fits 16 bits. -/
theorem indexedJumpAddsV0 : Obligations.IndexedJumpAddsV0 := by
  intro nnn s
  have hnnn : nnn.toNat < 4096 := nnn.isLt
  have hv : (s.getV 0).toNat < 256 := (s.getV 0).isLt
  have hsum : (zext16 nnn + zextByte (s.getV 0)).toNat = nnn.toNat + (s.getV 0).toNat := by
    rw [BitVec.toNat_add, zext16_toNat, zextByte_toNat, Nat.mod_eq_of_lt (by omega)]
  exact ⟨_, rfl, hsum, writesPcOnly_finish s _⟩

end Sys2Proof.Machine
end

section
/-! ## SKP and SKNP (R151, R152) -/
namespace Sys2Proof.Machine

/-- No key has the code (R151, R168). -/
theorem exec_skpVx_of_no_key {s : State} {x : Reg} (h : 15 < (s.getV x).toNat) : exec (.skpVx x) s =
    .next (raised (.boundsViolation .keyIndex) (some (encode (.skpVx x))) (s.getV x).toNat s) := by
  simp only [exec, execSkpVx, keyCode_error h]
  rfl

/-- No key has the code (R152, R168). -/
theorem exec_sknpVx_of_no_key {s : State} {x : Reg} (h : 15 < (s.getV x).toNat) : exec (.sknpVx x) s =
    .next (raised (.boundsViolation .keyIndex) (some (encode (.sknpVx x))) (s.getV x).toNat s) := by
  simp only [exec, execSknpVx, keyCode_error h]
  rfl

/-- Settles O55: with a key code in the register each of the two is a skip on the key's level, and with none it raises. -/
theorem keySkipsTestTheKey : Obligations.KeySkipsTestTheKey := fun _ _ =>
  ⟨fun _ hk => ⟨writesPcOnly_of_skip_or_next Iff.rfl (execSkpVx_ok hk),
      writesPcOnly_of_skip_or_next (iff_of_eq (Bool.not_eq_true' _)) (execSknpVx_ok hk)⟩,
    fun h => ⟨exec_skpVx_of_no_key h, exec_sknpVx_of_no_key h⟩⟩

end Sys2Proof.Machine
end

section
/-! ## LD F,Vx and ADD I,Vx (R132, R133) -/
namespace Sys2Proof.Machine

theorem exec_ldFVx (x : Reg) (s : State) :
    exec (.ldFVx x) s = .next (finish ⟨s.setI (zextByte (s.getV x) * 5), .next, false⟩) := rfl

/-- Settles O42: five times a byte fits 16 bits. -/
theorem loadFontAddressIsFiveTimes : Obligations.LoadFontAddressIsFiveTimes := by
  intro x s
  have hv : (s.getV x).toNat < 256 := (s.getV x).isLt
  have hfive : (5 : Word).toNat = 5 := rfl
  obtain ⟨t, ht, hI, frame⟩ := assignsIndex_of_exec (exec_ldFVx x s)
  refine ⟨t, ht, ?_, frame⟩
  rw [hI, BitVec.toNat_mul, zextByte_toNat, hfive, Nat.mod_eq_of_lt (by omega)]

/-- The sum that does not fit (R132, R167). -/
theorem exec_addIVx_of_overflow {s : State} {x : Reg} (h : 0xFFFF < s.index.toNat + (s.getV x).toNat) : exec (.addIVx x) s =
    .next (raised (.boundsViolation .indexOverflow) (some (encode (.addIVx x))) (s.index.toNat + (s.getV x).toNat) s) := by
  simp only [exec, execAddIVx, if_pos h]
  rfl

/-- Settles O43: the two clauses are the two sides of the instruction's own test. -/
theorem addToIndexOrOverflow : Obligations.AddToIndexOrOverflow := by
  intro x s
  refine ⟨fun h => ?_, exec_addIVx_of_overflow⟩
  obtain ⟨t, ht, hI, frame⟩ := assignsIndex_of_exec (i := .addIVx x) (execAddIVx_ok h)
  refine ⟨t, ht, ?_, frame⟩
  rw [hI, BitVec.toNat_add, zextByte_toNat, Nat.mod_eq_of_lt (by omega)]

end Sys2Proof.Machine
end

section
/-! ## Stores and loads at `I`, and their range check (R60, R66, R134 to R136, R142) -/
namespace Sys2Proof.Machine

/-! The range check comes first: what fails it is the whole effect (R60). -/

theorem exec_ldBVx_of_out_of_range {s : State} (x : Reg) (h : 0xFFF < s.index.toNat + 2) : exec (.ldBVx x) s =
    .next (raised (.boundsViolation .memAddress) (some (encode (.ldBVx x))) (max s.index.toNat 0x1000) s) := by
  simp only [exec, execLdBVx, checkRange_error h]
  rfl

theorem exec_ldMemVx_of_out_of_range {s : State} {x : Reg} (h : 0xFFF < s.index.toNat + x.toNat) : exec (.ldMemVx x) s =
    .next (raised (.boundsViolation .memAddress) (some (encode (.ldMemVx x))) (max s.index.toNat 0x1000) s) := by
  simp only [exec, execLdMemVx, checkRange_error h]
  rfl

theorem exec_ldVxMem_of_out_of_range {s : State} {x : Reg} (h : 0xFFF < s.index.toNat + x.toNat) : exec (.ldVxMem x) s =
    .next (raised (.boundsViolation .memAddress) (some (encode (.ldVxMem x))) (max s.index.toNat 0x1000) s) := by
  simp only [exec, execLdVxMem, checkRange_error h]
  rfl

theorem exec_drwVxVyN_of_out_of_range {s : State} {n : Nibble} (x y : Reg) (hn : n ≠ 0)
    (h : 0xFFF < s.index.toNat + (n.toNat - 1)) : exec (.drwVxVyN x y n) s =
    .next (raised (.boundsViolation .memAddress) (some (encode (.drwVxVyN x y n))) (max s.index.toNat 0x1000) s) := by
  simp only [exec, execDrwVxVyN, checkRows_error hn h]
  rfl

/-- Settles O47: each of the four fails its check. -/
theorem badAddressesFaultBeforeAnyWrite : Obligations.BadAddressesFaultBeforeAnyWrite := fun x y _ _ =>
  ⟨exec_ldBVx_of_out_of_range x, exec_ldMemVx_of_out_of_range, exec_ldVxMem_of_out_of_range, exec_drwVxVyN_of_out_of_range x y⟩

/-- The byte at `b` after a store of `bs` from `I` on, by an instruction that stores within the space (R58, R63). -/
theorem storesBytes_of_exec {i : Instr} {s : State} {bs : List Byte}
    (h : exec i s = .next (finish ⟨{ s with mem := s.mem.writeAll s.index.toNat bs }, .next, false⟩)) :
    ∃ t, exec i s = .next t ∧ (∀ b, t.mem.read b = overlaid s.index.toNat bs s b) ∧ CompletesAt (s.pc + 2) t ∧
      TicksFrom s.dt s.st t ∧ KeepsRegs s t ∧ KeepsIndex s t ∧ KeepsStack s t ∧ KeepsFb s t ∧ KeepsHost s t ∧ KeepsDraws s t :=
  ⟨_, h, Memory.read_writeAll bs s.mem s.index.toNat, ⟨rfl, rfl, rfl⟩, ticksFrom_finish _, fun _ => rfl, rfl,
    ⟨rfl, fun _ => rfl⟩, fun _ _ => rfl, ⟨fun _ => rfl, rfl, rfl⟩, rfl⟩

theorem overlaid_inside {a k : Nat} {row : List Byte} {s : State} (h : k < row.length) :
    overlaid a row s (a + k) = row.getD k 0 := by
  rw [overlaid, if_pos ⟨Nat.le_add_right a k, by omega⟩, Nat.add_sub_cancel_left]

theorem overlaid_outside {a b : Nat} {row : List Byte} {s : State} (h : b < a ∨ a + row.length ≤ b) :
    overlaid a row s b = s.mem.read b := by
  rw [overlaid, if_neg (by omega)]

/-- A decimal digit of a byte is a byte (R136). -/
theorem digitByte_toNat {d : Nat} (h : d < 256) : (BitVec.ofNat 8 d).toNat = d := by
  rw [BitVec.toNat_ofNat, Nat.mod_eq_of_lt h]

/-- Settles O44: the row stored is the three digits, each a byte. -/
theorem storeDecimalDigits : Obligations.StoreDecimalDigits := by
  intro x s h
  have hv : (s.getV x).toNat < 256 := (s.getV x).isLt
  have hlen : (decimalDigits (s.getV x)).length = 3 := rfl
  obtain ⟨t, ht, hmem, hpc, hticks, frame⟩ := storesBytes_of_exec (i := .ldBVx x) (execLdBVx_ok h)
  have hdigit (k : Nat) (hk : k < 3) : t.mem.read (s.index.toNat + k) = (decimalDigits (s.getV x)).getD k 0 := by
    rw [hmem, overlaid_inside hk]
  refine ⟨t, ht, ?hundreds, ?tens, ?ones, fun b hb => ?outside, hpc, hticks, frame⟩
  case hundreds => exact (congrArg BitVec.toNat (hdigit 0 (by decide))).trans (digitByte_toNat (by omega))
  case tens => exact (congrArg BitVec.toNat (hdigit 1 (by decide))).trans (digitByte_toNat (by omega))
  case ones => exact (congrArg BitVec.toNat (hdigit 2 (by decide))).trans (digitByte_toNat (by omega))
  case outside => rw [hmem, overlaid_outside (by rwa [hlen])]

/-- Settles O45: the row stored is the block of registers, in order. -/
theorem storeRegistersAscending : Obligations.StoreRegistersAscending := by
  intro x s h
  obtain ⟨t, ht, hmem, hpc, hticks, frame⟩ := storesBytes_of_exec (i := .ldMemVx x) (execLdMemVx_ok h)
  refine ⟨t, ht, fun r hr => ?inside, fun b hb => ?outside, hpc, hticks, frame⟩
  case inside =>
    have hlen : r.toNat < (regBlock x s).length := by rw [regBlock_length]; omega
    rw [hmem, overlaid_inside hlen, regBlock_getD hr]
  case outside => rw [hmem, overlaid_outside (by rwa [regBlock_length])]

/-- Settles O46: the row loaded is the bytes from `I` on, in order. -/
theorem loadRegistersAscending : Obligations.LoadRegistersAscending := by
  intro x s h
  have hx : x.toNat < 16 := x.isLt
  refine ⟨_, execLdVxMem_ok h, fun r => ?_, writesRegsOnly_finish (by rw [setRegs_eq]), by rw [setRegs_eq]; rfl⟩
  rw [getV_finish, getV_setRegs _ _ _ (by rw [memRows_length]; omega), memRows_length]
  by_cases hr : r.toNat ≤ x.toNat
  · rw [if_pos (by omega), if_pos hr, memRows_getD (by omega), Nat.sub_zero]
  · rw [if_neg (by omega), if_neg hr]

/-- Settles O48: the load reads at each address what the store left there. -/
theorem storeThenLoadGivesTheRegistersBack : Obligations.StoreThenLoadGivesTheRegistersBack := by
  intro x s t u h hstore hindex hmem
  obtain ⟨t', ht', hstored, -, -, -, -, hkeeps, -⟩ := storeRegistersAscending x s h
  obtain rfl : t' = t := Host.Outcome.next.inj (ht'.symm.trans hstore)
  have hI : u.index = s.index := hindex.trans hkeeps
  obtain ⟨w, hw, hloaded, -⟩ := loadRegistersAscending x u (by rwa [hI])
  refine ⟨w, hw, fun r hr => ?_⟩
  rw [hloaded, if_pos hr, hI, hmem, hstored r hr]

/-- The registers stored, as a row of reads (R134). -/
theorem regBlock_eq_regRow (x : Reg) (s : State) : regBlock x s = regRow x s := by
  have hx : x.toNat < 16 := x.isLt
  apply List.ext_getElem
  · simp [regRow]
  · intro k hk _
    rw [regBlock_length] at hk
    have hk' : k % 16 = k := by omega
    simp [regBlock, regRow, State.getV, hk']

/-- The fetch that follows an instruction two bytes on reads the bytes that the instruction left at `PC + 2` and `PC + 3`. -/
theorem fetch_after {s t : State} {row : List Byte} (hpc : s.pc.toNat ≤ 4092) (ht : t.pc = s.pc + 2)
    (hmem : ∀ b, t.mem.read b = overlaid s.index.toNat row s b) :
    ∃ w, fetch t = .ok w ∧ w.toNat = (overlaid s.index.toNat row s (s.pc.toNat + 2)).toNat * 256 +
      (overlaid s.index.toNat row s (s.pc.toNat + 3)).toNat := by
  have htwo : (2 : Word).toNat = 2 := rfl
  have htpc : t.pc.toNat = s.pc.toNat + 2 := by rw [ht, BitVec.toNat_add, htwo, Nat.mod_eq_of_lt (by omega)]
  obtain ⟨w, hw, hbytes⟩ := (fetchIsBigEndianUpTo4094 t).1 (by omega)
  refine ⟨w, hw, ?_⟩
  rw [hbytes, htpc, hmem, hmem]

/-- Settles O49: the fetch reads memory as the store left it. -/
theorem storeIsSeenByTheNextFetch : Obligations.StoreIsSeenByTheNextFetch := by
  intro x s t hpc
  refine ⟨fun h hstore => ?registers, fun h hstore => ?digits⟩
  case registers =>
    obtain ⟨t', ht', hmem, ⟨htpc, -⟩, -⟩ := storesBytes_of_exec (i := .ldMemVx x) (execLdMemVx_ok h)
    obtain rfl : t' = t := Host.Outcome.next.inj (ht'.symm.trans hstore)
    rw [regBlock_eq_regRow] at hmem
    exact fetch_after hpc htpc hmem
  case digits =>
    obtain ⟨t', ht', hmem, ⟨htpc, -⟩, -⟩ := storesBytes_of_exec (i := .ldBVx x) (execLdBVx_ok h)
    obtain rfl : t' = t := Host.Outcome.next.inj (ht'.symm.trans hstore)
    exact fetch_after hpc htpc hmem

end Sys2Proof.Machine
end

section
/-! ## What the instructions write and read (R21 to R23, R26, R27, R31, R32, R58, R203) -/
namespace Sys2Proof.Machine

/-- Settles O15: the effect keeps the registers outside the list, and the other ends of an execution write none. -/
theorem onlyListedRegistersChange : Obligations.OnlyListedRegistersChange := by
  intro i s t r h hr
  rcases exec_cases h with ⟨e, rfl, he⟩ | ⟨c, rfl, -⟩ | ⟨x, -, -, rfl⟩
  · exact he.regs r hr
  · rfl
  · rfl

/-- Settles O16: only a completed execution has outcome Done, and its effect holds a flag in VF. -/
theorem flagIsZeroOrOne : Obligations.FlagIsZeroOrOne := by
  intro i s t h hdone hflag
  rcases exec_cases h with ⟨e, rfl, he⟩ | ⟨c, rfl, -⟩ | ⟨x, -, -, rfl⟩
  · exact he.flag hflag
  · cases hdone
  · cases hdone

theorem keepsStack_of_eq {s t : State} (hsp : t.sp = s.sp) (hstack : t.stack = s.stack) : KeepsStack s t :=
  ⟨hsp, fun k => by rw [hstack]⟩

theorem keepsMem_of_eq {s t : State} (h : t.mem = s.mem) : KeepsMem s t := fun a => by rw [h]

theorem keepsFb_of_eq {s t : State} (h : t.fb = s.fb) : KeepsFb s t := fun r c => by rw [h]

theorem keepsKeys_of_eq {s t : State} (h : t.keys = s.keys) : KeepsKeys s t := fun k => by rw [State.key, State.key, h]

/-- Settles O17: the effect keeps each part of the state that its instruction is not named for, and the other ends of an execution
keep them all. -/
theorem onlyNamedInstructionsWriteTheRest : Obligations.OnlyNamedInstructionsWriteTheRest := by
  intro i s t h
  rcases exec_cases h with ⟨e, rfl, he⟩ | ⟨c, rfl, -⟩ | ⟨x, -, -, rfl⟩
  · exact ⟨he.index, fun hi => keepsStack_of_eq (he.stack hi).1 (he.stack hi).2, fun hi => keepsMem_of_eq (he.mem hi),
      fun hi => keepsFb_of_eq (he.fb hi), keepsKeys_of_eq he.keys, he.offered⟩
  all_goals
    exact ⟨fun _ => rfl, fun _ => keepsStack_of_eq rfl rfl, fun _ => keepsMem_of_eq rfl, fun _ => keepsFb_of_eq rfl,
      keepsKeys_of_eq rfl, rfl⟩

/-- An execution keeps the keys and the byte handed. -/
theorem exec_keys_offered {i : Instr} {s t : State} (h : exec i s = .next t) : t.keys = s.keys ∧ t.offered = s.offered := by
  rcases exec_cases h with ⟨e, rfl, he⟩ | ⟨c, rfl, -⟩ | ⟨x, -, -, rfl⟩
  · exact ⟨he.keys, he.offered⟩
  · exact ⟨rfl, rfl⟩
  · exact ⟨rfl, rfl⟩

/-! ### What an execution does not read -/

/-- The state with other host inputs, the keys `k` and the byte handed `o`, and other outputs `u` of the step before. -/
def State.withHost (s : State) (k : Vector Bool 16) (o : Option Byte) (u : Outputs) : State :=
  { s with keys := k, offered := o, out := u }

/-- The effect of an instruction on such a state. -/
def Effect.withHost (e : Effect) (k : Vector Bool 16) (o : Option Byte) (u : Outputs) : Effect :=
  { e with state := e.state.withHost k o u }

section
variable {s t : State} {k : Vector Bool 16} {o : Option Byte} {u : Outputs}

@[simp] theorem getV_withHost (r : Reg) : (s.withHost k o u).getV r = s.getV r := rfl
@[simp] theorem State.withHost_index : (s.withHost k o u).index = s.index := rfl
@[simp] theorem State.withHost_pc : (s.withHost k o u).pc = s.pc := rfl
@[simp] theorem regBlock_withHost (x : Reg) : regBlock x (s.withHost k o u) = regBlock x s := rfl
@[simp] theorem checkRange_withHost (m : Nat) : checkRange m (s.withHost k o u) = checkRange m s := rfl
@[simp] theorem checkRows_withHost (n : Nibble) : checkRows n (s.withHost k o u) = checkRows n s := rfl

@[simp] theorem loadBytes_withHost (a n : Nat) : loadBytes a n (s.withHost k o u) = loadBytes a n s := by
  induction n generalizing a with
  | zero => rfl
  | succ n ih => rw [loadBytes, loadBytes, ih]; rfl

@[simp] theorem storeBytes_withHost (a : Nat) (bs : List Byte) :
    storeBytes a bs (s.withHost k o u) = (storeBytes a bs s).map (·.withHost k o u) := by
  induction bs generalizing a s with
  | nil => rfl
  | cons b rest ih =>
    rw [storeBytes, storeBytes, memWrite, memWrite]
    split
    · exact ih (s := { s with mem := s.mem.write a b }) (a + 1)
    · rfl

@[simp] theorem setRegs_withHost (j : Nat) (bs : List Byte) :
    setRegs j bs (s.withHost k o u) = (setRegs j bs s).withHost k o u := by
  induction bs generalizing j s with
  | nil => rfl
  | cons b rest ih => exact ih (s := s.setV (BitVec.ofNat 4 j) b) (j + 1)

@[simp] theorem push_withHost (a : Word) : push a (s.withHost k o u) = (push a s).map (·.withHost k o u) := by
  unfold push
  split
  · rw [dif_pos ‹_›]; rfl
  · rw [dif_neg ‹_›]; rfl

@[simp] theorem pop_withHost : pop (s.withHost k o u) = (pop s).map fun p => (p.1, p.2.withHost k o u) := by
  unfold pop
  split
  · rw [dif_pos ‹_›]; rfl
  · rw [dif_neg ‹_›]; rfl

/-- Where the rest of the step gets the changed effect, it ends in the changed state, but for `out`, which it writes whole. -/
theorem complete_withHost {w : Word} {r r' : Except Cause Effect} (hr : r' = r.map (·.withHost k o u))
    (h : complete w r s = .next t) : complete w r' (s.withHost k o u) = .next (t.withHost k o t.out) := by
  subst hr
  cases r <;> cases h <;> rfl

end

/-- An execution differs in nothing else unless it reads what was changed: only SKP, SKNP and LD Vx,K read the keys (R32), only
RND the byte handed (R125), and none the outputs (R203). -/
theorem exec_withHost {i : Instr} {s t : State} {k : Vector Bool 16} {o : Option Byte} (u : Outputs)
    (hk : i.readsKeys → k = s.keys) (ho : (∃ x kk, i = .rndVxKk x kk) → o = s.offered) (h : exec i s = .next t) :
    exec i (s.withHost k o u) = .next (t.withHost k o t.out) := by
  cases i
  case ret =>
    refine complete_withHost ?_ h
    rw [pop_withHost]
    cases pop s <;> rfl
  case callAddr nnn =>
    refine complete_withHost ?_ h
    rw [State.withHost_pc, push_withHost]
    cases push (s.pc + 2) s <;> rfl
  case addIVx x =>
    refine complete_withHost ?_ h
    rw [getV_withHost, State.withHost_index]
    split <;> rfl
  case ldBVx x =>
    refine complete_withHost ?_ h
    rw [getV_withHost, State.withHost_index, checkRange_withHost, storeBytes_withHost]
    cases checkRange 2 s <;> cases storeBytes s.index.toNat (decimalDigits (s.getV x)) s <;> rfl
  case ldMemVx x =>
    refine complete_withHost ?_ h
    rw [regBlock_withHost, State.withHost_index, checkRange_withHost, storeBytes_withHost]
    cases checkRange x.toNat s <;> cases storeBytes s.index.toNat (regBlock x s) s <;> rfl
  case ldVxMem x =>
    refine complete_withHost ?_ h
    simp only [State.withHost_index, checkRange_withHost, loadBytes_withHost, setRegs_withHost]
    cases checkRange x.toNat s <;> cases loadBytes s.index.toNat (x.toNat + 1) s <;> rfl
  case drwVxVyN x y n =>
    refine complete_withHost ?_ h
    rw [State.withHost_index, checkRows_withHost, loadBytes_withHost]
    cases checkRows n s <;> cases loadBytes s.index.toNat n.toNat s <;> rfl
  case skpVx x | sknpVx x =>
    obtain rfl := hk trivial
    refine complete_withHost (u := u) ?_ h
    rw [getV_withHost]
    cases keyCode (s.getV x) <;> rfl
  case ldVxK x =>
    obtain rfl := hk trivial
    cases hl : lowestKey s with
    | none =>
      cases (exec_ldVxK_of_none x hl).symm.trans h
      exact exec_ldVxK_of_none (s := s.withHost s.keys o u) x hl
    | some j =>
      cases (exec_ldVxK_of_pressed x hl).symm.trans h
      exact exec_ldVxK_of_pressed (s := s.withHost s.keys o u) x hl
  case rndVxKk x kk =>
    obtain rfl := ho ⟨x, kk, rfl⟩
    cases h
    rfl
  all_goals
    cases h
    rfl

/-- Settles O18: the keys of the state after are those of the state before, here the changed ones. -/
theorem onlyKeyInstructionsReadTheKeys : Obligations.OnlyKeyInstructionsReadTheKeys := by
  intro i s t keys hi h
  have ht : t.withHost keys s.offered t.out = { t with keys := keys } := by rw [← (exec_keys_offered h).2]; rfl
  rw [← ht]
  exact exec_withHost s.out (fun hr => absurd hr hi) (fun _ => rfl) h

theorem exec_out (i : Instr) (s : State) (o : Outputs) : exec i { s with out := o } = exec i s := by
  obtain ⟨t, ht⟩ := exec_next i s
  obtain ⟨hkeys, hoffered⟩ := exec_keys_offered ht
  have hsame : t.withHost s.keys s.offered t.out = t := by rw [← hkeys, ← hoffered]; rfl
  rw [ht, ← hsame]
  exact exec_withHost o (fun _ => rfl) (fun _ => rfl) ht

/-- Settles O19: nothing before the execution reads the outputs, the ends of the step there write them whole, and an execution
does not read them either. -/
theorem outputsAreNeverRead : Obligations.OutputsAreNeverRead := by
  intro s o
  rcases step_cases s with ⟨hhalt, h⟩ | ⟨hrun, hpc, h⟩ | ⟨hrun, hpc, hdec, h⟩ | ⟨hrun, hpc, i, hdec, h⟩ <;> rw [h]
  · obtain ⟨r, hr⟩ := Option.ne_none_iff_exists'.1 hhalt
    exact step_of_halted (s := { s with out := o }) hr
  · exact step_of_pc_out_of_range (s := { s with out := o }) hrun hpc
  · exact step_of_illegal (s := { s with out := o }) hrun hpc hdec
  · rw [stepRunsTheDecodedInstruction { s with out := o } i hrun hpc hdec, exec_out]

end Sys2Proof.Machine
end

section
/-! ## RND Vx,kk and the host's Step(rnd) (R125, R200) -/
namespace Sys2Proof.Machine

theorem exec_rndVxKk (x : Reg) (kk : Byte) (s : State) : exec (.rndVxKk x kk) s =
    .next (finish ⟨{ s.setV x (s.drawn &&& kk) with draws := s.draws + 1 }, .next, false⟩) := rfl

/-- Whichever byte RND draws, its effect writes that byte under the mask, and counts the draw. -/
theorem draws_of_exec_rndVxKk (x : Reg) (kk : Byte) (s : State) :
    ∃ t, exec (.rndVxKk x kk) s = .next t ∧ t.getV x = s.drawn &&& kk ∧ (∀ r, r ≠ x → t.getV r = s.getV r) ∧
      t.draws = s.draws + 1 ∧ WritesRegsOnly s t := by
  have hv (r : Reg) : State.getV { s.setV x (s.drawn &&& kk) with draws := s.draws + 1 } r =
      if r = x then s.drawn &&& kk else s.getV r := getV_setV s x r _
  refine ⟨_, exec_rndVxKk x kk s, ?_, fun r hr => ?_, rfl, writesRegsOnly_finish rfl⟩
  · rw [getV_finish, hv, if_pos rfl]
  · rw [getV_finish, hv, if_neg hr]

theorem and_and_not_mask (b kk : Byte) : b &&& kk &&& ~~~kk = 0 := by
  rw [BitVec.and_assoc, BitVec.and_not_self]
  exact BitVec.and_zero

/-- The host's step of a machine whose instruction is RND: the byte handed is the byte drawn, and the field that held it is put
back. -/
theorem stepWith_of_rnd {rnd : Byte} {x : Reg} {kk : Byte} {s : State} (hrun : running s) (hpc : s.pc.toNat ≤ 4094)
    (hdec : decode (fetchWord s) = some (.rndVxKk x kk)) :
    ∃ t, stepWith rnd s = .next t ∧ t.getV x = rnd &&& kk ∧ (∀ r, r ≠ x → t.getV r = s.getV r) ∧
      t.draws = s.draws + 1 ∧ WritesRegsOnly s t := by
  obtain ⟨u, hu, hx, hr, hdraws, hat, hticks, hindex, hstack, hmem, hfb, hkeys, hfault, -⟩ :=
    draws_of_exec_rndVxKk x kk { s with offered := some rnd }
  have hstep := stepRunsTheDecodedInstruction { s with offered := some rnd } _ hrun hpc hdec
  exact ⟨_, stepWith_next.2 ⟨u, hstep.trans hu, rfl⟩, hx, hr, hdraws, hat, hticks, hindex, hstack, hmem, hfb, hkeys, hfault, rfl⟩

/-- Settles O40: what RND draws is `State.drawn`, which no other instruction reads. -/
theorem randomByteStaysUnderTheMask : Obligations.RandomByteStaysUnderTheMask := by
  refine ⟨fun x kk s => ?effect, fun rnd x kk s => stepWith_of_rnd, fun i s t o hi h => ?others⟩
  case effect =>
    obtain ⟨t, ht, hx, frame⟩ := draws_of_exec_rndVxKk x kk s
    exact ⟨t, ht, fun b hb => by rw [hx, drawn_some hb], fun hnone => by rw [hx, drawn_none hnone],
      by rw [hx, and_and_not_mask], frame⟩
  case others =>
    have ht : t.withHost s.keys o t.out = { t with offered := o } := by rw [← (exec_keys_offered h).1]; rfl
    rw [← ht]
    exact exec_withHost s.out (fun _ => rfl) (fun ⟨x, kk, hrnd⟩ => absurd hrnd (hi x kk)) h

end Sys2Proof.Machine
end

section
/-! ## The two invariants (R25, R50) -/
namespace Sys2Proof.Machine

/-- Settles O23: the effect of a completed step is canonical, by the writes of its instruction, and no other end writes memory. -/
theorem stepKeepsMemoryCanonical : Obligations.StepKeepsMemoryCanonical := by
  intro s t hs hstep
  cases step_ends hstep with
  | halted | raised | held => exact hs
  | completed _ _ _ he => exact he.canonical hs

/-- `Next` and `Skip` from a `PC` the fetch accepts stay below 0x1002, and a jump's target has the bound of its own (R25). -/
theorem target_toNat_le {i : Instr} {s : State} {e : Effect} (he : Executes i s e) (hs : PcBounded s) (hpc : s.pc.toNat ≤ 4094) :
    (e.directive.target s.pc).toNat ≤ 0x10FE := by
  have htwo : (s.pc + 2).toNat ≤ 4096 := by
    have h2 : (2 : Word).toNat = 2 := rfl
    rw [BitVec.toNat_add, h2]
    omega
  have hfour : (s.pc + 4).toNat ≤ 4098 := by
    have h4 : (4 : Word).toNat = 4 := rfl
    rw [BitVec.toNat_add, h4]
    omega
  rcases he.directive with hd | ⟨-, hd⟩ | ⟨-, a, hd⟩
  · rw [hd]; exact le_trans htwo (by decide)
  · rw [hd]; exact le_trans hfour (by decide)
  · rw [hd]; exact he.jumpLow hs a hd

/-- Settles O24: a completed step began at a `PC` the fetch accepts, which bounds where it goes and what it pushes; no other end
writes `PC` or the stack. -/
theorem stepKeepsPcBounded : Obligations.StepKeepsPcBounded := by
  intro s t hs hstep
  cases step_ends hstep with
  | halted | raised | held => exact hs
  | completed _ hpc _ he =>
    refine ⟨?_, he.stackLow hs hpc⟩
    rw [finish_pc, he.pc]
    exact target_toNat_le he hs hpc

theorem pcBounded_reset : PcBounded State.reset := ⟨by decide, by decide⟩

/-- Settles O25: reset lists no byte of memory, and its `PC` and stacked addresses are within their bounds. -/
theorem resetMeetsTheInvariants : Obligations.ResetMeetsTheInvariants := ⟨Memory.wf_reset, pcBounded_reset, rfl⟩

/-- A Reset that answers a state had an image that fits, and wrote it into the reset memory (R196). -/
theorem resetWith_next {rom : List Byte} {s t : State} (h : resetWith rom s = .next t) : rom.length ≤ 3584 ∧
    t = { State.reset with mem := State.reset.mem.writeAll Config.progBase rom, draws := s.draws } := by
  unfold resetWith at h
  split at h
  · rename_i hfits
    cases h
    exact ⟨of_decide_eq_true hfits, rfl⟩
  · cases h

theorem applyOp_keeps_invariants {op : HostOp} {s t : State} (hmem : MemoryCanonical s) (hpc : PcBounded s)
    (h : applyOp op s = .next t) : MemoryCanonical t ∧ PcBounded t := by
  cases op with
  | reset rom =>
    obtain ⟨hfits, rfl⟩ := resetWith_next h
    have hend : Config.progBase + rom.length ≤ 0x1000 := Nat.add_le_add_left hfits 0x200
    exact ⟨Memory.wf_writeAll Memory.wf_reset hend, pcBounded_reset⟩
  | step rnd =>
    obtain ⟨u, hu, rfl⟩ := stepWith_next.1 h
    exact ⟨stepKeepsMemoryCanonical { s with offered := some rnd } u hmem hu,
      stepKeepsPcBounded { s with offered := some rnd } u hpc hu⟩
  | keyUpdate keys =>
    cases h
    exact ⟨hmem, hpc⟩

theorem runOps_keeps_invariants {ops : List HostOp} {s t : State} (hmem : MemoryCanonical s) (hpc : PcBounded s)
    (h : runOps ops s = .next t) : MemoryCanonical t ∧ PcBounded t := by
  induction ops generalizing s with
  | nil =>
    cases h
    exact ⟨hmem, hpc⟩
  | cons op rest ih =>
    rw [runOps] at h
    split at h
    · rename_i u hu
      obtain ⟨hmem', hpc'⟩ := applyOp_keeps_invariants hmem hpc hu
      exact ih hmem' hpc' h
    · cases h
    · cases h

/-- Settles O26: each of the three operations keeps both, and a sequence from reset by induction. -/
theorem everyReachableStateMeetsTheInvariants : Obligations.EveryReachableStateMeetsTheInvariants :=
  ⟨fun _ _ _ => applyOp_keeps_invariants, fun _ _ => runOps_keeps_invariants Memory.wf_reset pcBounded_reset⟩

end Sys2Proof.Machine
end

section
/-! ## Reset and KeyUpdate (R42, R196, R202) -/
namespace Sys2Proof.Machine

/-- Settles O58: every field of the reset state evaluates, and memory from 0x050 on is outside the font. -/
theorem resetValuesAreTheTable : Obligations.ResetValuesAreTheTable :=
  ⟨by decide, rfl, rfl, rfl, by decide, rfl, rfl, Framebuffer.get_clear, by decide, rfl, rfl, fun _ => Memory.initial_of_ge⟩

/-- Settles O59: the image is one sequence of writes from 0x200 on, where it fits. -/
theorem resetLoadsTheImageOrFails : Obligations.ResetLoadsTheImageOrFails := by
  intro rom s
  refine ⟨fun hfits => ?loads, fun hlong => ?fails⟩
  case loads =>
    have hbase : Config.progBase = 0x200 := rfl
    have hlegal : legalImage rom = true := decide_eq_true hfits
    refine ⟨_, by rw [resetWith, if_pos hlegal], rfl, fun k hk => ?_, fun a ha => ?_⟩
    · rw [hbase, Memory.read_writeAll, if_pos (by omega), Nat.add_sub_cancel_left]
      exact (List.getElem_eq_getD 0).symm
    · rw [hbase, Memory.read_writeAll, if_neg (by omega)]
  case fails =>
    have hillegal : ¬ legalImage rom = true := fun h => absurd (of_decide_eq_true h) (Nat.not_le.2 hlong)
    rw [resetWith, if_neg hillegal]
    rfl

/-- Settles O60: KeyUpdate is the assignment of the snapshot to the keys. -/
theorem keyUpdateSetsOnlyTheKeys : Obligations.KeyUpdateSetsOnlyTheKeys := fun keys s =>
  ⟨keyUpdate keys s, rfl, fun _ => rfl, rfl⟩

end Sys2Proof.Machine
end

section
/-! ## The display (R141 to R146) -/
namespace Sys2Proof.Machine

/-- Settles O50: the effect is one assignment to the framebuffer. -/
theorem clsClearsEveryPixel : Obligations.ClsClearsEveryPixel := fun _ =>
  ⟨_, rfl, Framebuffer.get_clear, ⟨rfl, rfl, rfl⟩, ticksFrom_finish _, fun _ => rfl, rfl, ⟨rfl, fun _ => rfl⟩, fun _ => rfl,
    ⟨fun _ => rfl, rfl, rfl⟩, rfl⟩

/-! ### The cells of a sprite in the terms of the claims (R143 to R145) -/

/-- Sprite bit `j` of row `i` as a cell. -/
def spriteCell (rows : List Byte) (i j : Nat) : SpriteCell := (i, j, rows.getD i 0)

theorem exists_mem_spriteCells {rows : List Byte} {P : SpriteCell → Prop} :
    (∃ p ∈ spriteCells 0 rows, P p) ↔ ∃ i j, i < rows.length ∧ j < 8 ∧ P (spriteCell rows i j) := by
  constructor
  · rintro ⟨⟨i, j, row⟩, hp, h⟩
    obtain ⟨-, hi, hj, hrow⟩ := mem_spriteCells.1 hp
    have hcell : (i, j, row) = spriteCell rows i j := congrArg (fun b => (i, j, b)) hrow
    exact ⟨i, j, by simpa using hi, hj, hcell ▸ h⟩
  · rintro ⟨i, j, hi, hj, h⟩
    exact ⟨_, mem_spriteCells.2 ⟨Nat.zero_le i, by simpa [spriteCell] using hi, hj, rfl⟩, h⟩

theorem covered_iff {x0 y0 : Nat} {rows : List Byte} {r : Fin 32} {c : Fin 64} : Covered x0 y0 rows r c ↔
    ∃ p ∈ spriteCells 0 rows, p.bit = true ∧ p.target x0 y0 = (r, c) := by
  rw [exists_mem_spriteCells]
  refine exists_congr fun i => exists_congr fun j => ?_
  rw [Hits]
  refine and_congr_right fun _ => and_congr_right fun _ => and_congr Iff.rfl ?_
  rw [Prod.mk.injEq, Fin.ext_iff, Fin.ext_iff]
  exact and_congr eq_comm eq_comm

theorem someBitSet_iff {rows : List Byte} : SomeBitSet rows ↔ ∃ p ∈ spriteCells 0 rows, p.bit = true := by
  rw [exists_mem_spriteCells]
  rfl

/-- A set bit covers the pixel it is drawn to. -/
theorem someBitSet_iff_covered (x0 y0 : Nat) {rows : List Byte} : SomeBitSet rows ↔ ∃ r c, Covered x0 y0 rows r c := by
  simp only [someBitSet_iff, covered_iff]
  constructor
  · rintro ⟨p, hp, hbit⟩
    exact ⟨_, _, p, hp, hbit, rfl⟩
  · rintro ⟨r, c, p, hp, hbit, -⟩
    exact ⟨p, hp, hbit⟩

section
variable {x0 y0 : Nat} {rows : List Byte} {fb : Framebuffer}

/-- A pixel after a draw: inverted where it is covered (R143). -/
theorem draw_get_covered {r : Fin 32} {c : Fin 64} (hlen : rows.length ≤ 15) (h : Covered x0 y0 rows r c) :
    (draw x0 y0 rows fb).fb.get r c = !fb.get r c := by
  have hany : (spriteCells 0 rows).any (fun p => p.bit && decide (p.target x0 y0 = (r, c))) = true := by
    simpa [List.any_eq_true] using covered_iff.1 h
  rw [(draw_eq x0 y0 rows fb (by omega)).1, hany, Bool.xor_true]

theorem draw_get_uncovered {r : Fin 32} {c : Fin 64} (hlen : rows.length ≤ 15) (h : ¬ Covered x0 y0 rows r c) :
    (draw x0 y0 rows fb).fb.get r c = fb.get r c := by
  have hany : (spriteCells 0 rows).any (fun p => p.bit && decide (p.target x0 y0 = (r, c))) = false := by
    rw [← Bool.not_eq_true]
    simpa [List.any_eq_true] using mt covered_iff.2 h
  rw [(draw_eq x0 y0 rows fb (by omega)).1, hany, Bool.xor_false]

/-- The collision is that some covered pixel was 1 (R144). -/
theorem draw_collision_iff (hlen : rows.length ≤ 15) : (draw x0 y0 rows fb).collision = true ↔ Collides x0 y0 rows fb := by
  rw [(draw_eq x0 y0 rows fb (by omega)).2.1, List.any_eq_true, Collides]
  simp only [covered_iff, Bool.and_eq_true]
  constructor
  · rintro ⟨p, hp, hbit, hlit⟩
    exact ⟨_, _, ⟨p, hp, hbit, rfl⟩, hlit⟩
  · rintro ⟨r, c, ⟨p, hp, hbit, htarget⟩, hlit⟩
    obtain ⟨rfl, rfl⟩ := Prod.mk.inj htarget
    exact ⟨p, hp, hbit, hlit⟩

/-- A pixel is toggled exactly when some bit is 1 (R145). -/
theorem draw_toggled_iff (hlen : rows.length ≤ 15) : (draw x0 y0 rows fb).toggled = true ↔ SomeBitSet rows := by
  rw [(draw_eq x0 y0 rows fb (by omega)).2.2, List.any_eq_true, someBitSet_iff]

end

/-- Settles O51: the cells of a sprite of at most 15 rows differ, so each covered pixel is inverted once. -/
theorem drawFlipsExactlyTheSpriteBits : Obligations.DrawFlipsExactlyTheSpriteBits := fun _ _ _ _ hlen _ _ =>
  ⟨draw_get_covered hlen, draw_get_uncovered hlen⟩

/-- Settles O52: at most 15 rows have different cells, so each covered pixel is met as it was before the draw. -/
theorem drawReportsCollisionAndToggling : Obligations.DrawReportsCollisionAndToggling := fun _ _ _ _ hlen =>
  ⟨draw_collision_iff hlen, draw_toggled_iff hlen⟩

/-- The second of two equal draws meets every covered pixel inverted. -/
theorem second_draw_collision_iff {x0 y0 : Nat} {rows : List Byte} {fb : Framebuffer} (hlen : rows.length ≤ 15) :
    (draw x0 y0 rows (draw x0 y0 rows fb).fb).collision = true ↔ ∃ r c, Covered x0 y0 rows r c ∧ fb.get r c = false := by
  rw [draw_collision_iff hlen]
  refine exists_congr fun r => exists_congr fun c => and_congr_right fun hcov => ?_
  rw [draw_get_covered hlen hcov, Bool.not_eq_true']

/-- Settles O54: a covered pixel is inverted twice, and every other is kept twice. -/
theorem drawingTwiceRestoresTheFramebuffer : Obligations.DrawingTwiceRestoresTheFramebuffer := by
  intro x0 y0 rows fb hlen
  refine ⟨Framebuffer.ext fun r c => ?restores, second_draw_collision_iff hlen, ?clear⟩
  case restores =>
    by_cases hcov : Covered x0 y0 rows r c
    · rw [draw_get_covered hlen hcov, draw_get_covered hlen hcov, Bool.not_not]
    · rw [draw_get_uncovered hlen hcov, draw_get_uncovered hlen hcov]
  case clear =>
    rintro rfl
    constructor
    · rw [← Bool.not_eq_true, draw_collision_iff hlen]
      rintro ⟨r, c, -, hlit⟩
      rw [Framebuffer.get_clear] at hlit
      cases hlit
    · rw [second_draw_collision_iff hlen, someBitSet_iff_covered x0 y0]
      simp only [Framebuffer.get_clear, and_true]

/-- Settles O53: the effect is the draw of the rows at `I`, then the flag; a DRW has at most 15 rows. -/
theorem drwDrawsTheSpriteAtI : Obligations.DrwDrawsTheSpriteAtI := by
  intro x y n s h
  have hlen : (memRows s s.index.toNat n.toNat).length ≤ 15 := by
    have hn : n.toNat < 16 := n.isLt
    rw [memRows_length]
    omega
  refine ⟨_, execDrwVxVyN_ok h, fun _ _ => ⟨draw_get_covered hlen, draw_get_uncovered hlen⟩, fun hcol => ?collides,
    fun hcol => ?misses, draw_toggled_iff hlen, fun r hr => ?others, rfl, rfl, ticksFrom_finish _, rfl, ⟨rfl, fun _ => rfl⟩,
    fun _ => rfl, ⟨fun _ => rfl, rfl, rfl⟩, rfl⟩
  case collides => rw [getV_finish, State.setFlag, getV_setV, if_pos rfl, (draw_collision_iff hlen).2 hcol]; rfl
  case misses =>
    rw [getV_finish, State.setFlag, getV_setV, if_pos rfl, Bool.eq_false_iff.2 (mt (draw_collision_iff hlen).1 hcol)]; rfl
  case others => rw [getV_finish, State.setFlag, getV_setV, if_neg hr]; rfl

end Sys2Proof.Machine
end
